-- ==== Sys2Proof/Word.lean ====
section
/-! DEFINITION. The word types of NT4: bytes, nibbles, the 7-bit bus address, the 9-bit request word (00 R6, 30 R50). -/

namespace Sys2Proof

/-- A byte: the request operand, the bus byte, the port latch (10_state.md R10, R22). -/
abbrev Byte := BitVec 8

/-- Half of a byte (00_scope.md glossary "Nibble"). -/
abbrev Nibble := BitVec 4

/-- A bus address, 7 bits (00_scope.md R6). -/
abbrev BusAddr := BitVec 7

/-- The request word `REQ9 = (mode, value)` (30_encoding.md R50). -/
abbrev Req9 := BitVec 9

end Sys2Proof
end

