-- ==== Sys2Proof/Config.lean ====
section
/-! DEFINITION. What an implementation fixes (00_scope.md section 4), the macro constants (42_command_macros.md R121),
and the free values (`draw(S)` of 00_scope.md section 5). -/

namespace Sys2Proof

/-- `BUS_ADDR`, the one bus address NT4 writes (00_scope.md R6). -/
def busAddr : BusAddr := 0x27#7

/-- `T_WAIT_MIN` = 500 us, in picoseconds (00_scope.md R7). -/
def tWaitMinPs : Nat := 500000000

/-- `DATA_MASK`: the nibble travels in bits 7:4 (00_scope.md R8). -/
def dataMask : Byte := 0xF0#8

/-- The four flag masks of the bus byte (00_scope.md R8). -/
structure Masks where
  /-- `RS_MASK`, register select: the mode bit. -/
  rs : Byte
  /-- `RW_MASK`, the read/write line, 0 in every byte NT4 emits. -/
  rw : Byte
  /-- `EN_MASK`, the enable strobe. -/
  en : Byte
  /-- `BL_MASK`, the backlight, 1 in every byte NT4 emits. -/
  bl : Byte
  deriving DecidableEq, Repr

/-- The default masks of 00_scope.md R8. -/
def Masks.default : Masks := { rs := 0x01#8, rw := 0x02#8, en := 0x04#8, bl := 0x08#8 }

/-- One bit of a byte set and no other. -/
abbrev OneHot (b : Byte) : Prop := b ≠ 0#8 ∧ b &&& (b - 1#8) = 0#8

/-- The constraint of 00_scope.md R8: popcount 1 each, pairwise disjoint, union `0x0F`. -/
abbrev Masks.Ok (m : Masks) : Prop :=
  (OneHot m.rs ∧ OneHot m.rw ∧ OneHot m.en ∧ OneHot m.bl) ∧
  (m.rs &&& m.rw = 0#8 ∧ m.rs &&& m.en = 0#8 ∧ m.rs &&& m.bl = 0#8 ∧
    m.rw &&& m.en = 0#8 ∧ m.rw &&& m.bl = 0#8 ∧ m.en &&& m.bl = 0#8) ∧
  m.rs ||| m.rw ||| m.en ||| m.bl = 0x0F#8

/-- The configuration of one NT4 (00_scope.md R8, R9; 10_state.md R27 for `XP_INIT`). `T_CLK` is counted in
picoseconds: the spec gives it no unit (DESIGN CHOICE, log 5). -/
structure Config where
  masks     : Masks
  /-- `WAIT_TICKS`, the ticks counted in a wait (R9, OPEN). -/
  waitTicks : Nat
  /-- `T_CLK`, the clock period in picoseconds (R9, OPEN). -/
  tClkPs    : Nat
  /-- `XP_INIT`, the device register at power-on (D26, OPEN). -/
  xpInit    : Byte
  deriving DecidableEq, Repr

/-- The constraint of 00_scope.md R9: `WAIT_TICKS * T_CLK >= T_WAIT_MIN` and `WAIT_TICKS >= 1`. -/
abbrev Config.TimingOk (c : Config) : Prop := 1 ≤ c.waitTicks ∧ tWaitMinPs ≤ c.waitTicks * c.tClkPs

/-- A configuration the spec admits: the constraints of R8 and R9. -/
abbrev Config.Ok (c : Config) : Prop := c.masks.Ok ∧ c.TimingOk

/-- `CNT_W`, the least width that holds `WAIT_TICKS` (00_scope.md R9). -/
def Config.cntW (c : Config) : Nat := Nat.log2 c.waitTicks + 1

/-- The configuration of `State.reset`. The masks are the spec's defaults (R8). `WAIT_TICKS` = 2 and `T_CLK` = 250 us are
a DESIGN CHOICE (log 5) and `XP_INIT` = 0xFF is PRESUMED, the PCF8574 family's power-on value (log 3); the spec leaves
these open, so statements range over every configuration. -/
def Config.default : Config :=
  { masks := Masks.default, waitTicks := 2, tClkPs := 250000000, xpInit := 0xFF#8 }

/-- The requester's constants (42_command_macros.md R121). -/
structure MacroConsts where
  setCgram0 : Byte
  line1     : Byte
  line2     : Byte
  cmdClear  : Byte
  cmdHome   : Byte
  /-- `INIT_SEQ[0]` and `INIT_SEQ[1]`, the two half-commands of the 4-bit mode select. -/
  init0     : Byte
  init1     : Byte
  /-- `INIT_SEQ[2]`, function-set. -/
  init2     : Byte
  /-- `INIT_SEQ[3]`, entry-mode. -/
  init3     : Byte
  /-- `INIT_SEQ[4]`, display-on/cursor-off. -/
  init4     : Byte
  /-- `INIT_SEQ[5]`, clear. -/
  init5     : Byte
  deriving DecidableEq, Repr

/-- The defaults of 42_command_macros.md R121. -/
def MacroConsts.default : MacroConsts :=
  { setCgram0 := 0x40#8, line1 := 0x80#8, line2 := 0xC0#8, cmdClear := 0x01#8, cmdHome := 0x02#8,
    init0 := 0x33#8, init1 := 0x32#8, init2 := 0x28#8, init3 := 0x06#8, init4 := 0x0C#8, init5 := 0x01#8 }

/-- `ROWS` and `COLS` of the display (00_scope.md section 4). -/
def displayRows : Nat := 2
def displayCols : Nat := 16

/-- The n-th `draw(0..255)` for `XP`: after a failed write (20_memory.md R31) and after a reset that falls in a write phase
(70_reset_and_hazards.md R162). A free value: nothing constrains it (log 2). -/
opaque Config.freeXp : Nat → Byte

/-- What `VAL` holds after the n-th reset tick (70_reset_and_hazards.md R160: unspecified). A free value (log 2). -/
opaque Config.freeVal : Nat → Byte

/-- Whether `MODE` holds Data after the n-th reset tick (R160: unspecified). A free value (log 2). -/
opaque Config.freeModeIsData : Nat → Bool

/-- What `CNT` holds after the n-th reset tick, before it is cut to `CNT_W` bits (R160: unspecified). A free value (log 2). -/
opaque Config.freeCnt : Nat → Nat

end Sys2Proof
end

