-- ==== Sys2Proof/Syntax.lean ====
section
/-! DEFINITION. The instructions: one constructor per row of spec/opcode_table.json (30_encoding.md R55), the two word formats
they are encoded in (R50, R51), and the requester's macros (42_command_macros.md). -/

namespace Sys2Proof

/-- The mode of a request (10_state.md R11); 30_encoding.md R58: a third one does not exist. -/
inductive Mode
  | command
  | data
  deriving DecidableEq, Repr

/-- NT4's instructions. `sendc` and `sendd` are requests (format `REQ9`); `busbE0` and `busbE1` are the two classes of bus byte
(format `BUS8`), each carrying its nibble and the level of its RS bit. Every operand has exactly the width its field has, so
every term is a well-formed instruction (R56). -/
inductive Instr
  /-- `SENDC value` (40_send_byte.md R70). -/
  | sendc (value : Byte)
  /-- `SENDD value` (40_send_byte.md R71). -/
  | sendd (value : Byte)
  /-- `BUSB.E0`: the bus byte of a setup or an enable-low write (30_encoding.md R54, R55). -/
  | busbE0 (d : Nibble) (r : Mode)
  /-- `BUSB.E1`: the bus byte of an enable-high write (30_encoding.md R54, R55). -/
  | busbE1 (d : Nibble) (r : Mode)
  deriving DecidableEq, Repr

/-- A word as NT4 meets it: a request word on the request port (R50), or a byte on RegisterBus (R51). -/
inductive Word
  | req9 (w : Req9)
  | bus8 (b : Byte)
  deriving DecidableEq, Repr

/-- The requester's operations (30_encoding.md R60, 42_command_macros.md). Glyph rows are bytes (R127). -/
inductive Macro
  | init
  | clear
  | setPos (rowBase col : Nat)
  | text (s : List Char)
  | code (c : Byte)
  | loadGlyphs (set : List (List Byte))
  | delay
  deriving DecidableEq, Repr

/-- One line of an expanded program (30_encoding.md R59 to R61): a request, or a `DELAY`, which has no word. -/
inductive Item
  | send (m : Mode) (v : Byte)
  | delay
  deriving DecidableEq, Repr

end Sys2Proof
end

