-- ==== Sys2Proof/WellFormed.lean ====
section
/-! DEFINITION. What the spec asks of a term before it has a meaning: the masks and the time base (R8, R9), the text of a `TEXT`
(R125) and the shape of a glyph set (R127). An instruction is well-formed whatever its operands (R56, R58). -/

namespace Sys2Proof

/-- Every instruction is well-formed: "No request word is illegal, reserved, a hint or a custom encoding" (30_encoding.md R56),
and the operand types admit exactly the field values. -/
def Instr.wf : Instr → Bool
  | .sendc _ => true
  | .sendd _ => true
  | .busbE0 _ _ => true
  | .busbE1 _ _ => true

/-- A configuration that obeys R8 and R9. -/
def Config.wf (c : Config) : Bool := decide c.Ok

/-- Printable ASCII, `0x20..0x7E` (42_command_macros.md R125). -/
def printable (c : Char) : Bool := 0x20 ≤ c.toNat && c.toNat ≤ 0x7E

/-- A glyph set has exactly 8 glyphs of exactly 8 rows each (42_command_macros.md R127). -/
def glyphSetWf (set : List (List Byte)) : Bool := set.length == 8 && set.all (fun g => g.length == 8)

/-- The macros the source's contracts cover (R125, R127). `setPos` and `code` take anything (R124, R126). -/
def Macro.wf : Macro → Bool
  | .init => true
  | .clear => true
  | .setPos _ _ => true
  | .text s => s.all printable
  | .code _ => true
  | .loadGlyphs set => glyphSetWf set
  | .delay => true

end Sys2Proof
end

