-- ==== Sys2Proof/Decode.lean ====
section
/-! DEFINITION. Decoding (30_encoding.md sections 1, 3, 4) and, after it, encoding. Request words decode totally (R55); bus bytes
that NT4 never emits are rejected by name (R57). Beside them, the assembly notation (R59, R61). -/

namespace Sys2Proof

/-- Why a word is no instruction. -/
inductive DecodeError
  /-- A bus byte with the backlight bit clear (30_encoding.md R57). -/
  | backlightOff
  /-- A bus byte with the read/write line set (30_encoding.md R57). -/
  | readLineHigh
  deriving DecidableEq, Repr

/-- The numeric coding of `mode`: 0 Command, 1 Data (10_state.md R11). -/
def Mode.bit : Mode → BitVec 1
  | .command => 0#1
  | .data => 1#1

/-- The mode a bit stands for (10_state.md R11). -/
def Mode.ofBool : Bool → Mode
  | false => .command
  | true => .data

/-- Bit 8 of `REQ9` alone tells the two instructions apart (30_encoding.md R55). -/
def decodeReq (w : Req9) : Instr :=
  if w.getLsbD 8 then .sendd (w.extractLsb' 0 8) else .sendc (w.extractLsb' 0 8)

/-- The level of the RS bit in a bus byte, as a mode (30_encoding.md R51). -/
def Masks.modeOf (m : Masks) (b : Byte) : Mode := Mode.ofBool (decide (b &&& m.rs ≠ 0#8))

/-- The bus byte classes (30_encoding.md R51, R55, R57). -/
def decodeBus (m : Masks) (b : Byte) : Except DecodeError Instr :=
  if b &&& m.bl = 0#8 then .error .backlightOff
  else if b &&& m.rw ≠ 0#8 then .error .readLineHigh
  else if b &&& m.en = 0#8 then .ok (.busbE0 (b.extractLsb' 4 4) (m.modeOf b))
  else .ok (.busbE1 (b.extractLsb' 4 4) (m.modeOf b))

/-- The decoder, total on words. -/
def decode (m : Masks) : Word → Except DecodeError Instr
  | .req9 w => .ok (decodeReq w)
  | .bus8 b => decodeBus m b

/-- The word of a table row's bits: up to 8 bits a bus byte, up to 16 a request word, whose bits above bit 8 must be 0 (30_encoding.md
R50: "exactly one instruction length (9 bits)"). DESIGN CHOICE (log 13). -/
def wordOfBits (nbits w : Nat) : Option Word :=
  if nbits ≤ 8 then (if w < 256 then some (.bus8 (BitVec.ofNat 8 w)) else none)
  else if nbits ≤ 16 then (if w < 512 then some (.req9 (BitVec.ofNat 9 w)) else none)
  else none

/-- The instruction of a table row's bits under given masks. -/
def decodeBits (m : Masks) (nbits w : Nat) : Option Instr :=
  match wordOfBits nbits w with
  | some x => (decode m x).toOption
  | none => none

/-- The instruction the decoder reads from bits numbered as spec/opcode_table.json numbers them, under the default masks the
table is written for. -/
def decodeTableWord (nbits w : Nat) : Option Instr := decodeBits Masks.default nbits w

/-- `REQ9 = (req_mode, req_value)` (30_encoding.md R50). -/
def encodeReq (m : Mode) (v : Byte) : Req9 := m.bit ++ v

/-- The RS bit of a bus byte (30_encoding.md R51). -/
def Masks.rsBit (m : Masks) : Mode → Byte
  | .command => 0#8
  | .data => m.rs

/-- The fields of `BUS8`: the nibble in bits 7:4, BL set, RW clear, EN and RS as given (30_encoding.md R51). -/
def encodeBus (m : Masks) (d : Nibble) (r : Mode) (en : Bool) : Byte :=
  (d ++ 0#4) ||| m.bl ||| (if en then m.en else 0#8) ||| m.rsBit r

/-- The encoder. -/
def encode (m : Masks) : Instr → Word
  | .sendc v => .req9 (encodeReq .command v)
  | .sendd v => .req9 (encodeReq .data v)
  | .busbE0 d r => .bus8 (encodeBus m d r false)
  | .busbE1 d r => .bus8 (encodeBus m d r true)

/-! Assembly notation (30_encoding.md R59, R61); what R59 leaves open of it is a DESIGN CHOICE (log 15). -/

/-- The instruction of a request: `SENDC` for Command, `SENDD` for Data (30_encoding.md R55, R59). -/
def requestInstr (m : Mode) (v : Byte) : Instr :=
  match m with
  | .command => .sendc v
  | .data => .sendd v

/-- The instruction an item's line stands for (30_encoding.md R59). -/
def Item.instr? : Item → Option Instr
  | .send m v => some (requestInstr m v)
  | .delay => none

/-- The `REQ9` word of a line; a `DELAY` has none (30_encoding.md R61). -/
def Item.word? : Item → Option Req9
  | .send m v => some (encodeReq m v)
  | .delay => none

/-- One hexadecimal digit, capital letters. -/
def hexDigit (n : Nat) : Char :=
  if n < 10 then Char.ofNat (48 + n) else Char.ofNat (55 + n)

/-- A program listing's entry: three hexadecimal digits, or `DELAY` (30_encoding.md R61). -/
def Item.listing : Item → List Char
  | .send m v =>
    let w := (encodeReq m v).toNat
    [hexDigit (w / 256), hexDigit (w / 16 % 16), hexDigit (w % 16)]
  | .delay => ['D', 'E', 'L', 'A', 'Y']

/-- The value of a digit in a base up to 16; both letter cases. -/
def digitVal (c : Char) : Option Nat :=
  if '0' ≤ c ∧ c ≤ '9' then some (c.toNat - 48)
  else if 'A' ≤ c ∧ c ≤ 'F' then some (c.toNat - 55)
  else if 'a' ≤ c ∧ c ≤ 'f' then some (c.toNat - 87)
  else none

/-- A numeral in a base, all of the text; `none` where a character is no digit of the base. -/
def numeral (base : Nat) : Nat → List Char → Option Nat
  | acc, [] => some acc
  | acc, c :: cs =>
    match digitVal c with
    | some d => if d < base then numeral base (acc * base + d) cs else none
    | none => none

/-- The operand ends at a space or a `;`, and what follows is dropped as a comment (DESIGN CHOICE, log 15: 30_encoding.md R59 gives no
grammar). -/
def untilBreak (cs : List Char) : List Char := cs.takeWhile (fun c => c != ' ' && c != ';')

/-- The operand of a line; a quoted character is kept whole, so that it may be a space or a `;` itself, and text that stands directly
after its closing quote stays part of the operand, which is then no literal (DESIGN CHOICE, log 15). -/
def operandText : List Char → List Char
  | '\'' :: c :: '\'' :: r => '\'' :: c :: '\'' :: untilBreak r
  | cs => untilBreak cs

/-- An 8-bit literal: hexadecimal `0x..`, decimal, or a character in single quotes standing for its ASCII code (30_encoding.md R59). -/
def literal (cs : List Char) : Option Byte :=
  match cs with
  | ['\'', c, '\''] => if c.toNat < 128 then some (BitVec.ofNat 8 c.toNat) else none
  | '0' :: 'x' :: d :: ds =>
    match numeral 16 0 (d :: ds) with
    | some n => if n < 256 then some (BitVec.ofNat 8 n) else none
    | none => none
  | d :: ds =>
    match numeral 10 0 (d :: ds) with
    | some n => if n < 256 then some (BitVec.ofNat 8 n) else none
    | none => none
  | [] => none

/-- One assembly line: `SENDC value`, `SENDD value` or `DELAY`, with an optional comment after `;` (30_encoding.md R59). -/
def parseLine (cs : List Char) : Option Item :=
  match cs with
  | 'S' :: 'E' :: 'N' :: 'D' :: 'C' :: ' ' :: r => (literal (operandText (r.dropWhile (· == ' ')))).map (Item.send .command)
  | 'S' :: 'E' :: 'N' :: 'D' :: 'D' :: ' ' :: r => (literal (operandText (r.dropWhile (· == ' ')))).map (Item.send .data)
  | 'D' :: 'E' :: 'L' :: 'A' :: 'Y' :: r => if operandText r = [] then some .delay else none
  | _ => none

end Sys2Proof
end

