-- ==== Sys2Proof/Machine/State.lean ====
section
/-! DEFINITION. The state of NT4 and of its environment as plain data (10_state.md), the reasons a step can stop, and the
state after reset (10_state.md R27). -/

namespace Sys2Proof.Machine

/-- `PH`: exactly 14 values (10_state.md R12, 41_pulse_sequencer.md R108). -/
inductive Phase
  | idle
  | hSetup
  | hWait1
  | hEnHi
  | hWait2
  | hEnLo
  | hWait3
  | lSetup
  | lWait1
  | lEnHi
  | lWait2
  | lEnLo
  | lWait3
  | fault
  deriving DecidableEq, Repr

/-- The answer of a bus transaction (20_memory.md R31). -/
inductive BusResult
  | ok
  | err
  deriving DecidableEq, Repr

/-- One completed bus transaction, an entry of `TRACE` (10_state.md R25). -/
structure Txn where
  addr   : BusAddr
  data   : Byte
  result : BusResult
  deriving DecidableEq, Repr

/-- What the outside does at one tick: the input ports (10_state.md R20, 41_pulse_sequencer.md R90), and the facts the launch
premises `BusExclusive`, `BusReady` and `OneRequester` speak of (20_memory.md R45, 60_exceptions.md R141, 70_reset_and_hazards.md R169). -/
structure TickIn where
  rst      : Bool
  reqValid : Bool
  reqMode  : Mode
  reqValue : Byte
  busAck   : Bool
  busErr   : Bool
  /-- The byte another agent writes to 0x27 at this tick, if one does; no port of NT4. -/
  otherWrite : Option Byte
  /-- Whether RegisterBus is set up at this tick; no port of NT4. It is not where its bring-up has failed, which is `SetupFailure`. -/
  busReady : Bool
  /-- What a second agent presents on the request port at this tick, if one does; the port itself carries the one requester's. -/
  otherRequest : Option (Mode × Byte)
  deriving DecidableEq, Repr

/-- A tick at which nothing is asserted: no reset, no request, no acknowledge, no write of another agent, no second requester; RegisterBus
is set up. -/
def TickIn.quiet : TickIn :=
  { rst := false, reqValid := false, reqMode := .command, reqValue := 0#8, busAck := false, busErr := false,
    otherWrite := none, busReady := true, otherRequest := none }

/-- The ghost state of the reference receiver (40_send_byte.md R79): the last of the values it compares, the high nibble that waits
for its low nibble, and the bytes delivered so far. -/
structure Receiver where
  /-- `x(i-1)`: `XP` at the start, then its value after each `ok` write; what a draw leaves in `XP` is none of them. -/
  line      : Byte
  rxn       : Option (Mode × Nibble)
  delivered : List (Mode × Byte)
  deriving DecidableEq, Repr

/-- The whole machine. -/
structure State where
  /-- The configuration; no step changes it (00_scope.md R6 to R9, 10_state.md R19). -/
  cfg    : Config
  /-- `VAL`, the operand latch (10_state.md R10). -/
  val    : Byte
  /-- `MODE`, the mode latch (10_state.md R10, R11). -/
  mode   : Mode
  /-- `PH`, the sequence position (10_state.md R12). -/
  ph     : Phase
  /-- `CNT`, the wait counter, `CNT_W` bits (10_state.md R15). -/
  cnt    : Nat
  /-- `DONE`, the completion pulse (10_state.md R17). -/
  done   : Bool
  /-- `XP`, the expander's port latch behind RegisterBus (10_state.md R22). -/
  xp     : Byte
  /-- `TRACE`, every completed bus transaction, oldest first (10_state.md R25). -/
  trace  : List Txn
  /-- The reference receiver (10_state.md R24, 40_send_byte.md R79). -/
  rx     : Receiver
  /-- What the environment does at the coming ticks, oldest first; past its end it is quiet (10_state.md R26; log 4). -/
  inputs : List TickIn
  /-- How many `draw(S)` events there have been: the argument of the free values (log 2). -/
  draws  : Nat
  deriving DecidableEq, Repr

/-- Why the model faults. The exception of the spec, `TransmissionFailure`, is none of these: it is a next state
with `PH` = 13 (60_exceptions.md R144). -/
inductive Fault
  /-- `bus_wdata` is read while no write is requested, so that it is unspecified: "reading one is a `fault` of the model"
  (93_implementation_defined.md U11). Raised by `State.readBusWdata`; no step reads it then, so no step raises it. Safe: no value
  is named where the spec names none. -/
  | unspecifiedBusData
  deriving DecidableEq, Repr

/-- Why the machine gives no meaning. -/
inductive Refusal
  /-- Raised by an arm of `exec` whose instruction has no meaning yet. Safe: nothing is claimed of it. -/
  | notModelled (mnemonic : String)
  /-- Another agent writes address 0x27, and "no rule of this spec describes the result" (20_memory.md R45;
  93_implementation_defined.md U5: refuse). Raised by every step and every meaning whose ticks have such a write, and by the meanings
  of `BUSB.E0` and `BUSB.E1` for a byte that NT4 does not request. Safe. -/
  | busNotExclusive
  /-- NT4 is out of reset while RegisterBus is not set up (`SetupFailure`): "a run that violates the premise is not described by this
  spec" (60_exceptions.md R141; 93_implementation_defined.md U16: refuse). Raised by every step and every meaning whose ticks have one
  of that kind. Safe. -/
  | busNotReady
  /-- A second agent drives the request port: "two requesters sharing the port are outside the spec" (60_exceptions.md R150;
  70_reset_and_hazards.md R169; 93_implementation_defined.md U4: refuse). Raised by every step and every meaning whose ticks have one.
  Safe. -/
  | notOneRequester
  /-- The byte NT4 is writing is of no class of the opcode map (30_encoding.md R57). Raised by `step`, only under masks that break
  the constraint of 00_scope.md R8. Safe. -/
  | unknownBusByte (e : DecodeError)
  deriving DecidableEq, Repr

/-- The state after power-on and reset of a machine of configuration `c` (10_state.md R27). `VAL`, `MODE` and `CNT` are
unspecified there; the values 0, Command, 0 are a DESIGN CHOICE (log 1, unsafe). -/
def State.resetOf (c : Config) : State :=
  { cfg := c, val := 0#8, mode := .command, ph := .idle, cnt := 0, done := false, xp := c.xpInit, trace := [],
    rx := { line := c.xpInit, rxn := none, delivered := [] }, inputs := [], draws := 0 }

/-- The state after reset (10_state.md R27) under the default configuration (logs 3 and 5). -/
def State.reset : State := State.resetOf Config.default

/-- What the environment does at the next tick; quiet past the end of the list (log 4). -/
def State.nextIn (s : State) : TickIn := s.inputs.headD TickIn.quiet

end Sys2Proof.Machine
end

