-- ==== Sys2Proof/Machine/Operands.lean ====
section
/-! DEFINITION. The sequence position read as numbers (10_state.md R12 to R14) and operand assembly: the bytes NT4 puts on the
bus (30_encoding.md R52 to R54). -/

namespace Sys2Proof.Machine

/-- The numeric value of `PH` (10_state.md R12). -/
def Phase.num : Phase → Nat
  | .idle => 0
  | .hSetup => 1
  | .hWait1 => 2
  | .hEnHi => 3
  | .hWait2 => 4
  | .hEnLo => 5
  | .hWait3 => 6
  | .lSetup => 7
  | .lWait1 => 8
  | .lEnHi => 9
  | .lWait2 => 10
  | .lEnLo => 11
  | .lWait3 => 12
  | .fault => 13

/-- `nib = (PH-1) div 6`: 0 high, 1 low (10_state.md R13). -/
def Phase.nib (p : Phase) : Nat := (p.num - 1) / 6

/-- `step = (PH-1) mod 6` (10_state.md R13). -/
def Phase.microStep (p : Phase) : Nat := (p.num - 1) % 6

/-- `PH` in 1..12 (10_state.md R18). -/
def Phase.inTransfer (p : Phase) : Bool := 1 ≤ p.num && p.num ≤ 12

/-- A write phase: `step` in {0, 2, 4} (10_state.md R13). -/
def Phase.isWrite (p : Phase) : Bool :=
  p.inTransfer && (p.microStep == 0 || p.microStep == 2 || p.microStep == 4)

/-- A wait phase: `step` in {1, 3, 5} (10_state.md R13). -/
def Phase.isWait (p : Phase) : Bool :=
  p.inTransfer && (p.microStep == 1 || p.microStep == 3 || p.microStep == 5)

/-- The phase after `p` in the fixed sequence: `p+1`, and 0 after 12 (10_state.md R14). `IDLE` and `FAULT` have no successor of
their own and stay. -/
def Phase.next : Phase → Phase
  | .idle => .idle
  | .hSetup => .hWait1
  | .hWait1 => .hEnHi
  | .hEnHi => .hWait2
  | .hWait2 => .hEnLo
  | .hEnLo => .hWait3
  | .hWait3 => .lSetup
  | .lSetup => .lWait1
  | .lWait1 => .lEnHi
  | .lEnHi => .lWait2
  | .lWait2 => .lEnLo
  | .lEnLo => .lWait3
  | .lWait3 => .idle
  | .fault => .fault

/-- `HiByte(VAL) = VAL & 0xF0` (30_encoding.md R52). -/
def hiByte (v : Byte) : Byte := v &&& dataMask

/-- `LoByte(VAL) = (VAL << 4) & 0xF0` (30_encoding.md R52). -/
def loByte (v : Byte) : Byte := (v <<< 4) &&& dataMask

/-- `Flags(MODE)` (30_encoding.md R53). -/
def modeFlags (m : Masks) : Mode → Byte
  | .command => m.bl
  | .data => m.bl ||| m.rs

/-- The setup byte of the high nibble: `hi` of 40_send_byte.md R72. -/
def hiSetup (m : Masks) (v : Byte) (md : Mode) : Byte := hiByte v ||| modeFlags m md

/-- The setup byte of the low nibble: `lo` of 40_send_byte.md R72. -/
def loSetup (m : Masks) (v : Byte) (md : Mode) : Byte := loByte v ||| modeFlags m md

/-- `Base(VAL, MODE, nib)` (30_encoding.md R54). -/
def baseByte (m : Masks) (v : Byte) (md : Mode) (nib : Nat) : Byte :=
  if nib = 0 then hiSetup m v md else loSetup m v md

/-- `BusByte(VAL, MODE, PH)` (30_encoding.md R54); it has a meaning for a write phase only, see `busByte`. -/
def busData (m : Masks) (v : Byte) (md : Mode) (p : Phase) : Byte :=
  if p.microStep = 2 then baseByte m v md p.nib ||| m.en else baseByte m v md p.nib &&& ~~~m.en

/-- `BusByte`, "not defined for other `PH`" (30_encoding.md R54). -/
def busByte (m : Masks) (v : Byte) (md : Mode) (p : Phase) : Option Byte :=
  if p.isWrite then some (busData m v md p) else none

end Sys2Proof.Machine
end

