-- ==== Sys2Proof/Machine/Flags.lean ====
section
/-! DEFINITION. The derived flags (10_state.md R18), the output ports (10_state.md R20, 41_pulse_sequencer.md R99) and the pin view of
the port latch (10_state.md R23). -/

namespace Sys2Proof.Machine

/-- `READY = (PH = 0)` (10_state.md R18). -/
def State.ready (s : State) : Bool := s.ph.num == 0

/-- `BUSY = (1 <= PH <= 12)` (10_state.md R18). -/
def State.busy (s : State) : Bool := s.ph.inTransfer

/-- `FAULT = (PH = 13)` (10_state.md R16, R18). -/
def State.faulted (s : State) : Bool := s.ph.num == 13

/-- `bus_wr`: 1 exactly in the write phases (10_state.md R20). -/
def State.busWr (s : State) : Bool := s.ph.isWrite

/-- `bus_wdata`: `BusByte(VAL, MODE, PH)` while `bus_wr = 1`, unspecified (`none`) otherwise (10_state.md R20, 41 R99). -/
def State.busWdata (s : State) : Option Byte := busByte s.cfg.masks s.val s.mode s.ph

/-- Reading `bus_wdata`: a fault of the model while no write is requested (93_implementation_defined.md U11). -/
def State.readBusWdata (s : State) : Except Fault Byte :=
  match s.busWdata with
  | some v => .ok v
  | none => .error .unspecifiedBusData

/-- The output ports (10_state.md R20). -/
structure Outputs where
  reqReady : Bool
  busy     : Bool
  done     : Bool
  fault    : Bool
  busWr    : Bool
  busAddr  : BusAddr
  busWdata : Option Byte
  deriving DecidableEq, Repr

/-- Outputs are functions of the current state only (41_pulse_sequencer.md R99). -/
def State.outputs (s : State) : Outputs :=
  { reqReady := s.ready, busy := s.busy, done := s.done, fault := s.faulted, busWr := s.busWr,
    busAddr := Sys2Proof.busAddr, busWdata := s.busWdata }

/-- The eight lines toward the LCD module (10_state.md R23). -/
structure Pins where
  /-- `DB7..DB4`, `DB7` most significant. -/
  db        : Nibble
  backlight : Bool
  enable    : Bool
  readWrite : Bool
  rs        : Bool
  deriving DecidableEq, Repr

/-- A flag line of the latch. -/
def lineHigh (mask b : Byte) : Bool := decide (b &&& mask ≠ 0#8)

/-- The pin view of a byte in `XP` (10_state.md R23), by the configured masks. -/
def pinsOf (m : Masks) (b : Byte) : Pins :=
  { db := b.extractLsb' 4 4, backlight := lineHigh m.bl b, enable := lineHigh m.en b,
    readWrite := lineHigh m.rw b, rs := lineHigh m.rs b }

/-- The pins now. -/
def State.pins (s : State) : Pins := pinsOf s.cfg.masks s.xp

end Sys2Proof.Machine
end

