-- ==== Sys2Proof/Machine/Ops.lean ====
section
/-! DEFINITION. The named operations over the state: accepting a request, the bus write and its two completions, the entry into the
fault state (60_exceptions.md R144), reset, which is the only way out of it (R146), the wait counter, and the reference
receiver (40_send_byte.md R79). -/

namespace Sys2Proof.Machine

/-- The value `x` of `XP` after an `ok` write, as the reference receiver sees it (40_send_byte.md R79): where the enable line was high
after the `ok` write before it and is low now, it takes the nibble and the RS level that stood then; two nibbles make a byte. -/
def receive (m : Masks) (x : Byte) (r : Receiver) : Receiver :=
  if lineHigh m.en r.line && !lineHigh m.en x then
    match r.rxn with
    | none => { r with line := x, rxn := some (m.modeOf r.line, r.line.extractLsb' 4 4) }
    | some (_, nh) =>
      { line := x, rxn := none, delivered := r.delivered ++ [(m.modeOf r.line, nh ++ r.line.extractLsb' 4 4)] }
  else { r with line := x }

/-- The receiver over the values after a sequence of `ok` writes (40_send_byte.md R79). -/
def receiveAll (m : Masks) : List Byte → Receiver → Receiver
  | [], r => r
  | x :: xs, r => receiveAll m xs (receive m x r)

/-- Acceptance of a request (41_pulse_sequencer.md R91). -/
def State.accept (s : State) (m : Mode) (v : Byte) : State :=
  { s with val := v, mode := m, ph := .hSetup, done := false }

/-- `TRACE <- TRACE ++ [(0x27, v, result)]` (20_memory.md R31). -/
def State.record (s : State) (v : Byte) (r : BusResult) : State :=
  { s with trace := s.trace ++ [{ addr := busAddr, data := v, result := r }] }

/-- A bus write of `v` completes `ok`: traced, and the latch holds `v` (20_memory.md R31, 10_state.md R22); the reference receiver
sees it. -/
def State.busOk (s : State) (v : Byte) : State :=
  { s.record v .ok with xp := v, rx := receive s.cfg.masks v s.rx }

/-- Entry into a wait phase: `CNT <- WAIT_TICKS`, `PH <- PH + 1` (41_pulse_sequencer.md R92). -/
def State.enterWait (s : State) : State :=
  { s with cnt := s.cfg.waitTicks, ph := s.ph.next, done := false }

/-- `XP <- draw(0..255)` (20_memory.md R31; log 2). No event of the reference receiver (DEDUCED, log 11). -/
def State.drawXp (s : State) : State :=
  { s with xp := Config.freeXp s.draws, draws := s.draws + 1 }

/-- Entry into the fault state, `raise TransmissionFailure` (60_exceptions.md R144): the failing write is traced, `XP` is drawn,
`PH <- 13`, no `DONE`; `VAL`, `MODE`, `CNT` keep their values; nothing is saved and there is no handler. -/
def State.takeTransmissionFailure (s : State) (v : Byte) : State :=
  { (s.record v .err).drawXp with ph := .fault, done := false }

/-- A tick with `rst = 1` (70_reset_and_hazards.md R160, R162), the only exit from the fault state (60_exceptions.md R146):
`PH <- 0`, `DONE <- 0`; `VAL`, `MODE`, `CNT` become free values; `XP` is drawn where the reset falls in a write phase and
kept otherwise; `TRACE` and the receiver are kept. -/
def State.resetTick (s : State) : State :=
  { s with
    val := Config.freeVal s.draws
    mode := Mode.ofBool (Config.freeModeIsData s.draws)
    cnt := Config.freeCnt s.draws % 2 ^ s.cfg.cntW
    ph := .idle
    done := false
    xp := if s.ph.isWrite then Config.freeXp s.draws else s.xp
    draws := s.draws + 1 }

/-- Another list of coming inputs; nothing else. -/
def State.withInputs (s : State) (is : List TickIn) : State := { s with inputs := is }

/-- `DONE <- 0` and nothing else. -/
def State.clearDone (s : State) : State := { s with done := false }

end Sys2Proof.Machine
end

