-- ==== Sys2Proof/Machine/Sequencer.lean ====
section
/-! DEFINITION. NT4 at the tick level: one synchronous step per clock tick (41_pulse_sequencer.md R90 to R98). -/

namespace Sys2Proof.Machine

/-- `PH = 13` (41_pulse_sequencer.md R98): nothing changes. -/
def tickFault (s : State) : State := s.clearDone

/-- `PH = 0` (41_pulse_sequencer.md R91). -/
def tickIdle (i : TickIn) (s : State) : State :=
  if i.reqValid then s.accept i.reqMode i.reqValue else s.clearDone

/-- A write phase (41_pulse_sequencer.md R92, R93, R94). -/
def tickWrite (i : TickIn) (s : State) : State :=
  if i.busAck then
    if i.busErr then s.takeTransmissionFailure (busData s.cfg.masks s.val s.mode s.ph)
    else (s.busOk (busData s.cfg.masks s.val s.mode s.ph)).enterWait
  else s.clearDone

/-- A wait phase (41_pulse_sequencer.md R95, R97). -/
def tickWait (s : State) : State :=
  if s.cnt = 0 then { s with ph := s.ph.next, done := s.ph == .lWait3 }
  else { s with cnt := s.cnt - 1, done := false }

/-- One tick (41_pulse_sequencer.md R90): reset, then the fault state, then idle, then the write and wait phases. It is the tick of an NT4
whose launch premises hold; where one is violated it has no meaning, and `State.underPremises` refuses. -/
def tick (i : TickIn) (s : State) : State :=
  if i.rst then s.resetTick
  else
    match s.ph with
    | .fault => tickFault s
    | .idle => tickIdle i s
    | .hSetup | .hEnHi | .hEnLo | .lSetup | .lEnHi | .lEnLo => tickWrite i s
    | .hWait1 | .hWait2 | .hWait3 | .lWait1 | .lWait2 | .lWait3 => tickWait s

/-- Ticks under given inputs, one for each. -/
def ticks : List TickIn → State → State
  | [], s => s
  | i :: is, s => ticks is (tick i s)

/-- One tick of the machine with its environment: the next inputs are read and used up. -/
def State.advance (s : State) : State := (tick s.nextIn s).withInputs s.inputs.tail

/-- The inputs used up on the way from `s` to `t`. -/
def State.usedInputs (s t : State) : List TickIn := s.inputs.take (s.inputs.length - t.inputs.length)

/-- The launch premise a tick violates, if it does, so that the spec gives it no meaning: another agent writes 0x27 (`BusExclusive`;
20_memory.md R45, 93_implementation_defined.md U5), or NT4 is out of reset while RegisterBus is not set up (`BusReady`; 60_exceptions.md
R141, 93_implementation_defined.md U16), or a second agent drives the request port (`OneRequester`; 70_reset_and_hazards.md R169,
93_implementation_defined.md U4). DESIGN CHOICE of the form (log 14). -/
def TickIn.violation (i : TickIn) : Option Refusal :=
  if i.otherWrite.isSome then some .busNotExclusive
  else if !i.rst && !i.busReady then some .busNotReady
  else if i.otherRequest.isSome then some .notOneRequester
  else none

/-- `t`, reached from `s`, where no tick on the way violates a launch premise; else the refusal of the first one that does. -/
def State.underPremises (s t : State) : Host.Outcome State Fault Refusal :=
  match (s.usedInputs t).findSome? TickIn.violation with
  | some r => .refused r
  | none => .next t

/-- `n` ticks of the machine with its environment. -/
def State.advanceN : Nat → State → State
  | 0, s => s
  | n + 1, s => State.advanceN n s.advance

end Sys2Proof.Machine
end

