-- ==== Sys2Proof/Machine/BusBytes.lean ====
section
/-! DEFINITION. The meanings of the two bus byte classes, `BUSB.E0` and `BUSB.E1` (30_encoding.md R54, R55): one tick of the bus
write `BusWrite(0x27, byte)` that NT4 requests in a write phase (20_memory.md R31, 41_pulse_sequencer.md R92 to R94). DEDUCED
(log 10): the table calls them output byte classes. -/

namespace Sys2Proof.Machine

/-- The byte `b` stands on RegisterBus at the next tick. In a write phase that requests `b`, the tick of R92, R93 or R94 (or of
reset, which wins). A byte NT4 does not request, in a write phase or outside one, comes from another agent: no meaning
(20_memory.md R45, U5). -/
def State.busWrite (s : State) (b : Byte) : Host.Outcome State Fault Refusal :=
  if s.busWdata = some b then s.underPremises s.advance else .refused .busNotExclusive

/-- `BUSB.E0`: the bus byte of write phases 1, 5, 7 and 11 (30_encoding.md R54). -/
def execBusbE0 (d : Nibble) (r : Mode) (s : State) : Host.Outcome State Fault Refusal :=
  s.busWrite (encodeBus s.cfg.masks d r false)

/-- `BUSB.E1`: the bus byte of write phases 3 and 9 (30_encoding.md R54). -/
def execBusbE1 (d : Nibble) (r : Mode) (s : State) : Host.Outcome State Fault Refusal :=
  s.busWrite (encodeBus s.cfg.masks d r true)

end Sys2Proof.Machine
end

