-- ==== Sys2Proof/Machine/Transfer.lean ====
section
/-! DEFINITION. NT4 at the transaction level: `PulseNibble` and `SendByte` as lists of bus writes and waits (40_send_byte.md R72,
R73), their effect under a list of bus answers (20_memory.md R31, 40_send_byte.md R78), and a whole transfer performed by the
tick machine under the environment the state holds. -/

namespace Sys2Proof.Machine

/-- A step of a transfer at the transaction level. -/
inductive Micro
  | write (v : Byte)
  | wait
  deriving DecidableEq, Repr

/-- `PulseNibble(v)` (40_send_byte.md R73). -/
def pulseNibble (m : Masks) (v : Byte) : List Micro :=
  [.write v, .wait, .write (v ||| m.en), .wait, .write (v &&& ~~~m.en), .wait]

/-- `SendByte(b, m)` between acceptance and completion (40_send_byte.md R72). -/
def sendByte (m : Masks) (b : Byte) (md : Mode) : List Micro :=
  pulseNibble m (hiSetup m b md) ++ pulseNibble m (loSetup m b md)

/-- The bytes a list of steps writes. -/
def Micro.bytes : List Micro → List Byte
  | [] => []
  | .write v :: r => v :: Micro.bytes r
  | .wait :: r => Micro.bytes r

/-- The bus bytes of one transfer, in order (40_send_byte.md R72). -/
def transferBytes (m : Masks) (b : Byte) (md : Mode) : List Byte := Micro.bytes (sendByte m b md)

/-- A trace entry of a write that completed `ok`. -/
def okTxn (v : Byte) : Txn := { addr := busAddr, data := v, result := .ok }

/-- A trace entry of a write that completed with `BusError`. -/
def errTxn (v : Byte) : Txn := { addr := busAddr, data := v, result := .err }

/-- How a transfer stands at the transaction level. -/
inductive TransferEnd
  /-- Every step was performed: the request is complete. -/
  | complete
  /-- A write returned `BusError`: `TransmissionFailure` (R78). -/
  | failed
  /-- The bus has given no answer (yet): the transfer hangs in a write (41_pulse_sequencer.md R105). -/
  | hanging
  deriving DecidableEq, Repr

/-- The steps of a transfer under the bus's answers (20_memory.md R31): the trace it adds and how it ends. A failed write ends it at
once (40_send_byte.md R78); where the answers run out, the write blocks. -/
def runMicro : List Micro → List BusResult → List Txn × TransferEnd
  | [], _ => ([], .complete)
  | .wait :: r, as => runMicro r as
  | .write _ :: _, [] => ([], .hanging)
  | .write v :: _, .err :: _ => ([errTxn v], .failed)
  | .write v :: r, .ok :: as => (okTxn v :: (runMicro r as).1, (runMicro r as).2)

/-- The transfer's effect on the machine at the transaction level where every write succeeds (40_send_byte.md R72): the latches, the
six trace entries, the latch behind the bus, the receiver, `DONE` and `PH <- 0`. `CNT` has run out. -/
def State.completed (s : State) (md : Mode) (b : Byte) : State :=
  { s with
    val := b
    mode := md
    ph := .idle
    cnt := 0
    done := true
    xp := loSetup s.cfg.masks b md &&& ~~~s.cfg.masks.en
    trace := s.trace ++ (transferBytes s.cfg.masks b md).map okTxn
    rx := receiveAll s.cfg.masks (transferBytes s.cfg.masks b md) s.rx }

/-- The request put on the request port at the next tick (10_state.md R20). -/
def State.present (s : State) (md : Mode) (v : Byte) : State :=
  s.withInputs ({ s.nextIn with reqValid := true, reqMode := md, reqValue := v } :: s.inputs.tail)

/-- Whether a request on the port is accepted at the next tick: `req_valid & req_ready`, no reset (10_state.md R20, 70 R160). -/
def State.accepts (s : State) : Bool := s.ready && !s.nextIn.rst

/-- Ticks while a transfer is in progress and the environment's inputs last. It ends at completion, in the fault state, at a
reset, or where the inputs end; from there the machine goes on tick by tick. -/
def runTransfer : List TickIn → State → State
  | [], s => s
  | i :: rest, s => if s.busy then runTransfer rest ((tick i s).withInputs rest) else s

/-- The meaning of a request presented at the next tick (40_send_byte.md R70 to R72): if it is accepted, the whole transfer; if
NT4 is busy, in the fault state or in reset, it is ignored and the tick takes its own course (41_pulse_sequencer.md R101). -/
def State.sendRequest (s : State) (md : Mode) (v : Byte) : State :=
  if s.accepts then runTransfer s.inputs.tail (s.present md v).advance
  else (s.present md v).advance

end Sys2Proof.Machine
end

