-- ==== Sys2Proof/Machine/Send.lean ====
section
/-! DEFINITION. The meanings of the two instructions, `SENDC` and `SENDD` (40_send_byte.md R70, R71). -/

namespace Sys2Proof.Machine

/-- `SENDC value`: `SendByte(value, 0)` (40_send_byte.md R70). -/
def execSendc (value : Byte) (s : State) : Host.Outcome State Fault Refusal :=
  s.underPremises (s.sendRequest .command value)

/-- `SENDD value`: `SendByte(value, 1)` (40_send_byte.md R71). -/
def execSendd (value : Byte) (s : State) : Host.Outcome State Fault Refusal :=
  s.underPremises (s.sendRequest .data value)

end Sys2Proof.Machine
end

