-- ==== Sys2Proof/Machine/Dispatch.lean ====
section
/-! DEFINITION. exec: one arm per instruction. -/

namespace Sys2Proof.Machine

def exec (i : Instr) (s : State) : Host.Outcome State Fault Refusal :=
  match i with
  | .sendc value => Sys2Proof.Machine.execSendc value s
  | .sendd value => Sys2Proof.Machine.execSendd value s
  | .busbE0 d r => Sys2Proof.Machine.execBusbE0 d r s
  | .busbE1 d r => Sys2Proof.Machine.execBusbE1 d r s

end Sys2Proof.Machine
end

