-- ==== Sys2Proof/Machine/Fetch.lean ====
section
/-! DEFINITION. Where the next instruction of a step stands, and placing one there. NT4 fetches nothing from a memory
(20_memory.md R44): an instruction is the request on the request port while NT4 is idle (10_state.md R20), or the byte NT4
itself puts on the bus in a write phase (30_encoding.md R54, R55). -/

namespace Sys2Proof.Machine

/-- What stands at the place of the next instruction. -/
inductive Fetched
  | instr (i : Instr)
  /-- No instruction: reset, idle without a request, a wait phase, the fault state. The step is a plain tick. -/
  | hold
  /-- The byte on the bus is of no class of the opcode map. -/
  | unknown (e : DecodeError)
  deriving DecidableEq, Repr

/-- The request word on the port (30_encoding.md R50). -/
def TickIn.reqWord (i : TickIn) : Req9 := encodeReq i.reqMode i.reqValue

/-- The next instruction, decoded from its word. Reset is tested first (41_pulse_sequencer.md R90). -/
def State.fetch (s : State) : Fetched :=
  if s.nextIn.rst then .hold
  else if s.ready then
    (if s.nextIn.reqValid then
      match decode s.cfg.masks (.req9 s.nextIn.reqWord) with
      | .ok i => .instr i
      | .error e => .unknown e
    else .hold)
  else
    match s.busWdata with
    | none => .hold
    | some b =>
      match decode s.cfg.masks (.bus8 b) with
      | .ok i => .instr i
      | .error e => .unknown e

/-- The state in which the step finds instruction `i` next. A request: `PH` = 0 and the request on the port at a tick without
reset. A bus byte: a write phase of its class, whose latches give the byte (high nibble `d`, mode `r`), at a tick without
reset. That tick violates no launch premise. Nothing else changes. DESIGN CHOICE (log 8). -/
def State.place (s : State) (i : Instr) : State :=
  match i with
  | .sendc v =>
    { s with
        ph := .idle
        inputs :=
          { s.nextIn with
              rst := false, otherWrite := none, busReady := true, otherRequest := none, reqValid := true,
              reqMode := .command, reqValue := v } ::
            s.inputs.tail }
  | .sendd v =>
    { s with
        ph := .idle
        inputs :=
          { s.nextIn with
              rst := false, otherWrite := none, busReady := true, otherRequest := none, reqValid := true,
              reqMode := .data, reqValue := v } ::
            s.inputs.tail }
  | .busbE0 d r =>
    { s with ph := .hSetup, val := d ++ s.val.extractLsb' 0 4, mode := r,
             inputs := { s.nextIn with rst := false, otherWrite := none, busReady := true, otherRequest := none } :: s.inputs.tail }
  | .busbE1 d r =>
    { s with ph := .hEnHi, val := d ++ s.val.extractLsb' 0 4, mode := r,
             inputs := { s.nextIn with rst := false, otherWrite := none, busReady := true, otherRequest := none } :: s.inputs.tail }

/-- A table row's bits placed where the step fetches; a word that is no instruction changes nothing. -/
def State.placeBits (s : State) (nbits w : Nat) : State :=
  match decodeBits s.cfg.masks nbits w with
  | some i => s.place i
  | none => s

end Sys2Proof.Machine
end

