-- ==== Sys2Proof/Machine/Step.lean ====
section
/-! DEFINITION. One step: the instruction that stands next is run; where none stands, one tick passes. -/

namespace Sys2Proof.Machine

/-- One step of the machine. An accepted request is one step, its whole transfer under the environment's inputs; everything else
is one tick (DESIGN CHOICE, log 8). -/
def step (s : State) : Host.Outcome State Fault Refusal :=
  match s.fetch with
  | .instr i => exec i s
  | .hold => s.underPremises s.advance
  | .unknown e => .refused (.unknownBusByte e)

/-- `s` with the instruction of these bits placed where `step` fetches its next instruction. -/
def State.withFetchWord (s : State) (nbits w : Nat) : State := s.placeBits nbits w

end Sys2Proof.Machine
end

