-- ==== Sys2Proof/Machine/Environment.lean ====
section
/-! DEFINITION. What an environment does over a stretch of ticks, said without the machine: an answered write, a wait without reset,
a run of successful writes (10_state.md R26, 41_pulse_sequencer.md R92 to R96). And runs under an unending environment. -/

namespace Sys2Proof.Machine

/-- A tick that cuts a stretch short: a reset, or a tick that violates a launch premise (20_memory.md R45, 60_exceptions.md R141,
70_reset_and_hazards.md R169). -/
def TickIn.disturbed (i : TickIn) : Bool := i.rst || i.violation.isSome

/-- The bus answers a requested write after any number of ticks, none before it disturbed: the answer and the ticks after it. -/
def Env.answer : List TickIn → Option (BusResult × List TickIn)
  | [] => none
  | i :: is =>
    if i.disturbed then none
    else if i.busAck then some (if i.busErr then .err else .ok, is)
    else Env.answer is

/-- `n` undisturbed ticks. -/
def Env.pass : Nat → List TickIn → Option (List TickIn)
  | 0, is => some is
  | _ + 1, [] => none
  | n + 1, i :: is => if i.disturbed then none else Env.pass n is

/-- `k` writes, each answered `ok` and followed by a wait phase of `w + 1` ticks (41_pulse_sequencer.md R95), none of
them disturbed: the ticks that remain. -/
def Env.okWrites (w : Nat) : Nat → List TickIn → Option (List TickIn)
  | 0, is => some is
  | k + 1, is =>
    match Env.answer is with
    | some (.ok, is') =>
      match Env.pass (w + 1) is' with
      | some is'' => Env.okWrites w k is''
      | none => none
    | _ => none

/-- `k` successful writes and then one that is answered with `BusError` (40_send_byte.md R78). -/
def Env.failsAfter (w k : Nat) (is : List TickIn) : Option (List TickIn) :=
  match Env.okWrites w k is with
  | some is' =>
    match Env.answer is' with
    | some (.err, is'') => some is''
    | _ => none
  | none => none

/-- The first tick that presents a request, neither it nor one before it disturbed: its request and the ticks after it. -/
def Env.request : List TickIn → Option ((Mode × Byte) × List TickIn)
  | [] => none
  | i :: is =>
    if i.disturbed then none
    else if i.reqValid then some ((i.reqMode, i.reqValue), is)
    else Env.request is

/-- The requests of a program are presented one after the other, each to an idle NT4, and each one's six writes succeed
(42_command_macros.md R120): the ticks that remain. -/
def Env.serves (w : Nat) : List (Mode × Byte) → List TickIn → Option (List TickIn)
  | [], is => some is
  | q :: qs, is =>
    match Env.request is with
    | some (q', is') =>
      if q' = q then
        match Env.okWrites w 6 is' with
        | some is'' => Env.serves w qs is''
        | none => none
      else none
    | none => none

/-- The ticks a bus makes that acknowledges every write at the `l`-th tick of its phase (`l >= 1`), for `k` writes, with nothing
else asserted (70_reset_and_hazards.md R175). -/
def Env.regular (w l : Nat) : Nat → List TickIn
  | 0 => []
  | k + 1 =>
    List.replicate (l - 1) TickIn.quiet ++ [{ TickIn.quiet with busAck := true }] ++
      List.replicate (w + 1) TickIn.quiet ++ Env.regular w l k

/-- The state before tick `n` of a run under an unending environment. -/
def stateAt (env : Nat → TickIn) (s : State) : Nat → State
  | 0 => s
  | n + 1 => tick (env n) (stateAt env s n)

end Sys2Proof.Machine
end

