-- ==== Sys2Proof/Machine/EventLevel.lean ====
section
/-! DEFINITION. The event-level machine, which carries no clock (41_pulse_sequencer.md R102), and the event each tick stands for
(R107). -/

namespace Sys2Proof.Machine

/-- The state `(PH, VAL, MODE, XP, TRACE)` (41_pulse_sequencer.md R102). -/
structure EState where
  ph    : Phase
  val   : Byte
  mode  : Mode
  xp    : Byte
  trace : List Txn
  deriving DecidableEq, Repr

/-- The labels of R102. The byte a `draw(0..255)` yields is carried by the label: chosen by nobody, any value. Durations are in
picoseconds. DESIGN CHOICE (log 16). -/
inductive Label
  | accept (m : Mode) (b : Byte)
  | wrOk
  | wrErr (drawn : Byte)
  | wait (d : Nat)
  | reset (drawn : Byte)
  deriving DecidableEq, Repr

/-- One event; `none` where the label is not enabled (41_pulse_sequencer.md R102). -/
def EState.step (ms : Masks) (e : EState) : Label → Option EState
  | .accept m b => if e.ph = .idle then some { e with val := b, mode := m, ph := .hSetup } else none
  | .wrOk =>
    match busByte ms e.val e.mode e.ph with
    | some v =>
      some { e with trace := e.trace ++ [{ addr := busAddr, data := v, result := .ok }], xp := v, ph := e.ph.next }
    | none => none
  | .wrErr x =>
    match busByte ms e.val e.mode e.ph with
    | some v =>
      some { e with trace := e.trace ++ [{ addr := busAddr, data := v, result := .err }], xp := x, ph := .fault }
    | none => none
  | .wait d => if e.ph.isWait ∧ tWaitMinPs ≤ d then some { e with ph := e.ph.next } else none
  | .reset x => some { e with ph := .idle, xp := if e.ph.isWrite then x else e.xp }

/-- Whether a label is the completion event `done` (41_pulse_sequencer.md R102). -/
def EState.completes (e : EState) : Label → Bool
  | .wait _ => e.ph == .lWait3
  | _ => false

/-- A run of events. -/
def EState.run (ms : Masks) : List Label → EState → Option EState
  | [], e => some e
  | l :: ls, e =>
    match e.step ms l with
    | some e' => EState.run ms ls e'
    | none => none

/-- `CNT` and `DONE` disappear (41_pulse_sequencer.md R102). -/
def State.project (s : State) : EState :=
  { ph := s.ph, val := s.val, mode := s.mode, xp := s.xp, trace := s.trace }

/-- The length of a wait phase, `(WAIT_TICKS + 1) * T_CLK` (41_pulse_sequencer.md R96). -/
def waitPs (c : Config) : Nat := (c.waitTicks + 1) * c.tClkPs

/-- The event a tick stands for, or nothing where it is erased (41_pulse_sequencer.md R107). -/
def tickLabel (i : TickIn) (s : State) : Option Label :=
  if i.rst then some (.reset (Config.freeXp s.draws))
  else if s.ready then (if i.reqValid then some (.accept i.reqMode i.reqValue) else none)
  else if s.busWr then
    (if i.busAck then (if i.busErr then some (.wrErr (Config.freeXp s.draws)) else some .wrOk) else none)
  else if s.ph.isWait && s.cnt == 0 then some (.wait (waitPs s.cfg))
  else none

/-- The events of a run of ticks, in order (41_pulse_sequencer.md R107). -/
def tickLabels : List TickIn → State → List Label
  | [], _ => []
  | i :: is, s => (tickLabel i s).toList ++ tickLabels is (tick i s)

/-- The request an event accepts. -/
def Label.request? : Label → Option (Mode × Byte)
  | .accept m b => some (m, b)
  | _ => none

/-- The accepted requests of a run of events, in order (20_memory.md R38). -/
def acceptedOf (ls : List Label) : List (Mode × Byte) := ls.filterMap Label.request?

/-- A tick-level and an event-level state agree (41_pulse_sequencer.md R107): phase, latch and trace always; the operand latches
while a transfer is in progress, since nothing reads them otherwise and a reset leaves them unspecified (10_state.md R10,
R27). -/
def Agrees (s : State) (e : EState) : Prop :=
  s.ph = e.ph ∧ s.xp = e.xp ∧ s.trace = e.trace ∧ (s.busy = true → s.val = e.val ∧ s.mode = e.mode)

/-- Whether the request accepted last in a run of ticks has been given its `DONE` (70_reset_and_hazards.md R178); `d` says so of the run
before it. A run without an acceptance has nothing to give. -/
def lastDone (d : Bool) : List TickIn → State → Bool
  | [], _ => d
  | i :: is, s =>
    lastDone ((tick i s).done || (d && (acceptedOf (tickLabel i s).toList).isEmpty)) is (tick i s)

/-- How many bytes a run of ticks completes: the ticks after which `DONE` is 1 (10_state.md R17). -/
def completions : List TickIn → State → Nat
  | [], _ => 0
  | i :: is, s => (if (tick i s).done then 1 else 0) + completions is (tick i s)

end Sys2Proof.Machine
end

