-- ==== Sys2Proof/Machine/Macros.lean ====
section
/-! DEFINITION. The requester's macros (42_command_macros.md R120 to R131): each one's expansion into requests, the order in which
the requester may use them, and the lower bounds of their durations (70_reset_and_hazards.md R174). They are software that
drives NT4, no part of it (00_scope.md R5). -/

namespace Sys2Proof

/-- Why a macro is refused. -/
inductive MacroRefusal
  /-- A `TEXT` with a character outside `0x20..0x7E` (42_command_macros.md R125, D22). -/
  | notPrintable
  /-- A glyph set that is not 8 glyphs of 8 rows (42_command_macros.md R127). -/
  | glyphSetShape
  /-- A macro other than `INIT` before `INIT` (70_reset_and_hazards.md R164). -/
  | notInitialized
  /-- A `TEXT` or `CODE` after `LOADGLYPHS` with no `SETPOS` between (42_command_macros.md R130). -/
  | positionRequired
  /-- Any macro while NT4's `fault` output is 1: the requester can present nothing more (42_command_macros.md R131). -/
  | transmissionFailed
  deriving DecidableEq, Repr

/-- A data request for a character (42_command_macros.md R125). -/
def charItem (c : Char) : Item := .send .data (BitVec.ofNat 8 c.toNat)

/-- The expansion of a macro (42_command_macros.md R122 to R127). -/
def Macro.expand (k : MacroConsts) : Macro → Except MacroRefusal (List Item)
  | .init =>
    .ok [.send .command k.init0, .send .command k.init1, .send .command k.init2, .send .command k.init3,
      .send .command k.init4, .send .command k.init5, .delay]
  | .clear => .ok [.send .command k.cmdClear, .send .command k.cmdHome]
  | .setPos rowBase col => .ok [.send .command (BitVec.ofNat 8 ((rowBase + col) % 256))]
  | .text s => if s.all printable then .ok (s.map charItem) else .error .notPrintable
  | .code c => .ok [.send .data c]
  | .loadGlyphs set =>
    if glyphSetWf set then .ok (.send .command k.setCgram0 :: set.flatten.map (Item.send .data))
    else .error .glyphSetShape
  | .delay => .ok [.delay]

/-- The expansion of a list of macros (42_command_macros.md R120). -/
def expandAll (k : MacroConsts) : List Macro → Except MacroRefusal (List Item)
  | [] => .ok []
  | m :: ms =>
    match m.expand k with
    | .error e => .error e
    | .ok items =>
      match expandAll k ms with
      | .error e => .error e
      | .ok rest => .ok (items ++ rest)

/-- The requests of a program, in order. -/
def Item.request? : Item → Option (Mode × Byte)
  | .send m v => some (m, v)
  | .delay => none

/-- The requests of an expanded program. -/
def requestsOf (items : List Item) : List (Mode × Byte) := items.filterMap Item.request?

/-- The bus writes a program performs if nothing fails: 6 for each byte (42_command_macros.md R120, 40_send_byte.md R75). -/
def busWritesOf (items : List Item) : Nat := 6 * (requestsOf items).length

/-- The least time an item takes, in picoseconds: six waits for a byte, one for the settle delay (70_reset_and_hazards.md R174). -/
def Item.minPs : Item → Nat
  | .send _ _ => 6 * tWaitMinPs
  | .delay => tWaitMinPs

/-- The least time a program takes, bus transactions not counted (70_reset_and_hazards.md R174). -/
def minPsOf (items : List Item) : Nat := (items.map Item.minPs).sum

/-- The requester's state (42_command_macros.md R128), with the hazard of R130 as a state of its own. -/
inductive Driver
  | uninitialized
  | ready
  /-- After `LOADGLYPHS`: the controller's address pointer is left in CGRAM. -/
  | pointerInCgram
  deriving DecidableEq, Repr

/-- The macros the requester may use and where they lead (42_command_macros.md R128, R130; 70_reset_and_hazards.md R164, R172). Only a
`SETPOS` leaves `pointerInCgram` (DEDUCED, log 9). -/
def Driver.next (d : Driver) (m : Macro) : Except MacroRefusal Driver :=
  match d with
  | .uninitialized =>
    match m with
    | .init => .ok .ready
    | .delay => .ok .uninitialized
    | .clear => .error .notInitialized
    | .setPos _ _ => .error .notInitialized
    | .text _ => .error .notInitialized
    | .code _ => .error .notInitialized
    | .loadGlyphs _ => .error .notInitialized
  | .ready =>
    match m with
    | .loadGlyphs _ => .ok .pointerInCgram
    | .init => .ok .ready
    | .clear => .ok .ready
    | .setPos _ _ => .ok .ready
    | .text _ => .ok .ready
    | .code _ => .ok .ready
    | .delay => .ok .ready
  | .pointerInCgram =>
    match m with
    | .setPos _ _ => .ok .ready
    | .text _ => .error .positionRequired
    | .code _ => .error .positionRequired
    | .init => .ok .pointerInCgram
    | .clear => .ok .pointerInCgram
    | .loadGlyphs _ => .ok .pointerInCgram
    | .delay => .ok .pointerInCgram

/-- The requester's state after a list of macros, or the first refusal. -/
def Driver.run : Driver → List Macro → Except MacroRefusal Driver
  | d, [] => .ok d
  | d, m :: ms =>
    match d.next m with
    | .ok d' => Driver.run d' ms
    | .error e => .error e

end Sys2Proof
end

