-- ==== Sys2Proof/Machine/Requester.lean ====
section
/-! DEFINITION. The requester as an agent beside NT4: it holds each request on the port until it is accepted (70_reset_and_hazards.md
R171), presents nothing during a settle delay (R165), and starts again from `Uninitialized` after a reset or a fault
(42_command_macros.md R128, 70_reset_and_hazards.md R177). Outside State, and `DELAY`'s length in ticks: DESIGN CHOICE (log 12). -/

namespace Sys2Proof.Machine

/-- The requester: what it has still to send, whether a request of it has been accepted and not yet completed, the ticks already
waited in the current `DELAY`, and its own state. -/
structure Requester where
  items   : List Item
  pending : Bool
  settle  : Nat
  driver  : Driver
  deriving DecidableEq, Repr

/-- The requester after every reset of NT4 (42_command_macros.md R128). -/
def Requester.start : Requester := { items := [], pending := false, settle := 0, driver := .uninitialized }

/-- What the requester presents next: nothing while its last request is not completed (42_command_macros.md R120), nothing once
`fault` = 1 (R131), nothing in a `DELAY`. -/
def Requester.next? (r : Requester) (s : State) : Option (Mode × Byte) :=
  if s.faulted || r.pending then none
  else
    match r.items with
    | .send m v :: _ => some (m, v)
    | .delay :: _ => none
    | [] => none

/-- The request port as the requester drives it: the next request, held until it is accepted (70_reset_and_hazards.md R171). It sees
NT4's outputs, not its inputs. -/
def Requester.drive (r : Requester) (s : State) (i : TickIn) : TickIn :=
  match r.next? s with
  | some (m, v) => { i with reqValid := true, reqMode := m, reqValue := v }
  | none => { i with reqValid := false }

/-- The requester after a tick. A request leaves it when it is accepted and is completed when `done` is 1, after which the next one may be
presented (42_command_macros.md R120). A `DELAY` lasts `WAIT_TICKS + 1` ticks of an idle NT4, which is at least `T_WAIT_MIN`
(70_reset_and_hazards.md R165). At `fault` = 1 it stops where it is (42_command_macros.md R131); after a reset nothing of the program is
continued (70_reset_and_hazards.md R177). The requester sees `fault` in the first period in which it is 1, and its own state is
`uninitialized` from the next tick on: 42_command_macros.md R128 names no tick (DESIGN CHOICE, log 12). -/
def Requester.after (r : Requester) (i : TickIn) (s : State) : Requester :=
  if i.rst then Requester.start
  else if s.faulted then { r with driver := .uninitialized }
  else if r.pending then { r with pending := !s.done }
  else if s.ready then
    match r.items with
    | .send _ _ :: rest => { r with items := rest, pending := true, settle := 0 }
    | .delay :: rest =>
      if r.settle < s.cfg.waitTicks then { r with settle := r.settle + 1 } else { r with items := rest, settle := 0 }
    | [] => r
  else r

/-- NT4 and its requester. -/
structure System where
  nt4 : State
  req : Requester
  deriving DecidableEq, Repr

/-- The requester takes up a macro, sent when everything before it has been (42_command_macros.md R120); refused as `Driver.next` and
`Macro.expand` say, and whatever it is once `fault` = 1 (R131). The requester's state moves when the macro is taken up, before its first
byte is sent, so that macros may be taken up while `INIT` is still being sent and follow it: R128 and 70_reset_and_hazards.md R164 name no
instant (DESIGN CHOICE, log 12). -/
def System.load (y : System) (k : MacroConsts) (m : Macro) : Except MacroRefusal System :=
  if y.nt4.faulted then .error .transmissionFailed
  else
    match y.req.driver.next m with
    | .error e => .error e
    | .ok d =>
      match m.expand k with
      | .error e => .error e
      | .ok items => .ok { y with req := { y.req with items := y.req.items ++ items, driver := d } }

/-- The inputs NT4 sees at a tick: the request port from the requester, the rest from `i`. -/
def System.inputs (y : System) (i : TickIn) : TickIn := y.req.drive y.nt4 i

/-- One tick of both; `i` gives what the bus and the reset source do. -/
def System.tick (y : System) (i : TickIn) : System :=
  { nt4 := Machine.tick (y.inputs i) y.nt4, req := y.req.after i y.nt4 }

/-- A run of both. -/
def System.run : List TickIn → System → System
  | [], y => y
  | i :: is, y => System.run is (y.tick i)

/-- The requests NT4 accepts in a run of both, in order. -/
def System.accepted : List TickIn → System → List (Mode × Byte)
  | [], _ => []
  | i :: is, y => acceptedOf (tickLabel (y.inputs i) y.nt4).toList ++ System.accepted is (y.tick i)

end Sys2Proof.Machine
end

