-- ==== Sys2Proof/Safety.lean ====
section
/-! DEFINITION. What counts as a safe and as a finished run (70_reset_and_hazards.md R178), the named premises (92_eei_decisions.md),
and the invariant every step keeps. -/

namespace Sys2Proof.Machine

/-- Premise `NoFault`: no trace entry has result `err` (60_exceptions.md R144). -/
abbrev NoFault (s : State) : Prop := ∀ t ∈ s.trace, t.result = .ok

/-- No reset in a stretch of ticks. -/
abbrev NoReset (is : List TickIn) : Prop := ∀ i ∈ is, i.rst = false

/-- Premise `BusExclusive`: no other agent writes bus address 0x27 (20_memory.md R45, 70_reset_and_hazards.md R170). The other case has
no meaning: `State.underPremises` refuses it. -/
abbrev BusExclusive (is : List TickIn) : Prop := ∀ i ∈ is, i.otherWrite = none

/-- Premise `BusReady`: RegisterBus is set up when NT4 leaves reset (60_exceptions.md R141, 70_reset_and_hazards.md R163), and, once set
up, stays so (DEDUCED, log 14): it is set up at every tick without reset. `State.underPremises` refuses the other case. -/
abbrev BusReady (is : List TickIn) : Prop := ∀ i ∈ is, i.rst = false → i.busReady = true

/-- Premise `BusWellBehaved`: the bus acknowledges only a requested write (70_reset_and_hazards.md R163). -/
def BusWellBehaved (env : Nat → TickIn) (s : State) : Prop :=
  ∀ n, (env n).busAck = true → (stateAt env s n).busWr = true

/-- Premise `BusAnswers`: every requested write is eventually acknowledged (41_pulse_sequencer.md R105), that is, `bus_ack` comes at that
tick or a later one. The spec is silent on a requested write that a reset abandons; here any `bus_ack` from that tick on, also one at or
after the reset, counts (DESIGN CHOICE, log 17). -/
def BusAnswers (env : Nat → TickIn) (s : State) : Prop :=
  ∀ n, (stateAt env s n).busWr = true → ∃ k, n ≤ k ∧ (env k).busAck = true

/-- The first half of premise `OneRequester`, for a stretch of ticks: a single agent drives the request port (70_reset_and_hazards.md R169).
The other case has no meaning: `State.underPremises` refuses it. -/
abbrev SingleDriver (is : List TickIn) : Prop := ∀ i ∈ is, i.otherRequest = none

/-- Premise `OneRequester`: a single agent drives the request port (70_reset_and_hazards.md R169), and it holds a request, unchanged, until
the tick that accepts it (R171). Whether it must hold it across a reset the spec does not say; here the duty ends at a reset tick, since
after it the requester starts over with `INIT` (R164, R177) (DEDUCED, log 18). -/
def OneRequester (env : Nat → TickIn) (s : State) : Prop :=
  (∀ n, (env n).otherRequest = none) ∧
  ∀ n, (env n).reqValid = true → (env n).rst = false → (stateAt env s n).ready = false →
    (env (n + 1)).reqValid = true ∧ (env (n + 1)).reqMode = (env n).reqMode ∧
      (env (n + 1)).reqValue = (env n).reqValue

/-- A run of a finite program has ended (70_reset_and_hazards.md R178): every request accepted, `PH = 0`, and the `DONE` pulse of the
last one given. An earlier one may have been abandoned by a reset; such an end is not final. -/
def Ended (prog : List (Mode × Byte)) (is : List TickIn) (s : State) : Prop :=
  acceptedOf (tickLabels is s) = prog ∧ (ticks is s).ready = true ∧ lastDone true is s = true

/-- No reset at or after the first acceptance (70_reset_and_hazards.md R178). -/
def NoResetAfterAccept : List Label → Prop
  | [] => True
  | .accept _ _ :: ls => ∀ x, Label.reset x ∉ ls
  | _ :: ls => NoResetAfterAccept ls

/-- The end is final (70_reset_and_hazards.md R178). -/
def FinalEnd (prog : List (Mode × Byte)) (is : List TickIn) (s : State) : Prop :=
  Ended prog is s ∧ NoFault (ticks is s) ∧ NoResetAfterAccept (tickLabels is s)

/-- The byte of the write phase before a wait phase. -/
def lastWritten (s : State) : Byte :=
  match s.ph with
  | .hWait1 => busData s.cfg.masks s.val s.mode .hSetup
  | .hWait2 => busData s.cfg.masks s.val s.mode .hEnHi
  | .hWait3 => busData s.cfg.masks s.val s.mode .hEnLo
  | .lWait1 => busData s.cfg.masks s.val s.mode .lSetup
  | .lWait2 => busData s.cfg.masks s.val s.mode .lEnHi
  | .lWait3 => busData s.cfg.masks s.val s.mode .lEnLo
  | .hEnHi => busData s.cfg.masks s.val s.mode .hSetup
  | .hEnLo => busData s.cfg.masks s.val s.mode .hEnHi
  | .lSetup => busData s.cfg.masks s.val s.mode .hEnLo
  | .lEnHi => busData s.cfg.masks s.val s.mode .lSetup
  | .lEnLo => busData s.cfg.masks s.val s.mode .lEnHi
  | .idle => s.xp
  | .hSetup => s.xp
  | .fault => s.xp

/-- The value of `XP` after the last `ok` write of a trace (40_send_byte.md R79). -/
def lastOk (tr : List Txn) : Option Byte := (tr.filter (fun e => e.result == .ok)).getLast?.map Txn.data

/-- A bus byte NT4 can emit (30_encoding.md R57). -/
abbrev Emittable (m : Masks) (b : Byte) : Prop := b &&& m.bl ≠ 0#8 ∧ b &&& m.rw = 0#8

/-- The machine's invariant. -/
structure Inv (s : State) : Prop where
  /-- `CNT` fits in `CNT_W` bits (10_state.md R15). -/
  cntFits      : s.cnt < 2 ^ s.cfg.cntW
  /-- A wait phase counts down from `WAIT_TICKS` (41_pulse_sequencer.md R92, R95). -/
  cntBound     : s.ph.isWait = true → s.cnt ≤ s.cfg.waitTicks
  /-- `DONE` is 1 only while NT4 is idle (41_pulse_sequencer.md R97). -/
  doneIdle     : s.done = true → s.ph = .idle
  /-- Every transaction is at 0x27 (20_memory.md R30). -/
  traceAddr    : ∀ t ∈ s.trace, t.addr = busAddr
  /-- Every byte written is one NT4 can emit (30_encoding.md R57). -/
  traceBytes   : ∀ t ∈ s.trace, Emittable s.cfg.masks t.data
  /-- The fault state is entered by a failed write only (10_state.md R16). -/
  faultCause   : s.ph = .fault → ∃ v, s.trace.getLast? = some (errTxn v)
  /-- After a write of a transfer the latch holds its byte until the next one (20_memory.md R41). -/
  latchHolds   : s.xp = lastWritten s
  /-- And that write is the last entry of the trace. -/
  traceLast    : s.busy = true → s.ph ≠ .hSetup → s.trace.getLast? = some (okTxn s.xp)
  /-- The reference receiver compares with the value after the last `ok` write, at the start with `XP_INIT` (40_send_byte.md
  R79); a draw and an NT4 reset leave that value (DEDUCED, log 11). -/
  receiverLine : s.rx.line = (lastOk s.trace).getD s.cfg.xpInit

end Sys2Proof.Machine
end

