-- ==== Sys2Proof/Certificates/Slice0/Obligations.lean ====
section
/-! DEFINITION. The statements for the provers. Each docstring names the rules of spec/ it formalises. -/

open Sys2Proof Sys2Proof.Machine

/-! ## Encoding (30_encoding.md) -/

/-- O1. Words written out from the spec's encodings decode to the instruction they stand for; bus bytes that NT4 never emits
do not decode (30_encoding.md R50, R51, R55, R57). That a number of 9 to 16 bits is read as a request word, and is none above 9 bits,
is the model's choice (log 13). -/
def Obligations.EncodedWordsDecode : Prop :=
  decodeTableWord 16 0x040 = some (.sendc 0x40#8) ∧
  decodeTableWord 16 0x0FF = some (.sendc 0xFF#8) ∧
  decodeTableWord 16 0x141 = some (.sendd 0x41#8) ∧
  decodeTableWord 16 0x100 = some (.sendd 0x00#8) ∧
  decodeTableWord 8 0xA8 = some (.busbE0 0xA#4 .command) ∧
  decodeTableWord 8 0x59 = some (.busbE0 0x5#4 .data) ∧
  decodeTableWord 8 0x1C = some (.busbE1 0x1#4 .command) ∧
  decodeTableWord 8 0xFD = some (.busbE1 0xF#4 .data) ∧
  decodeTableWord 8 0x40 = none ∧ decodeTableWord 8 0x4A = none ∧ decodeTableWord 16 0x200 = none

/-- O2. Decoding an encoded instruction gives it back, under every admitted choice of masks. -/
def Obligations.DecodeEncodeRoundTrip : Prop :=
  ∀ (m : Masks), m.Ok → ∀ i : Instr, decode m (encode m i) = .ok i

/-- O3. A word that decodes is the encoding of what it decodes to, under every admitted choice of masks: no bit of it is
dropped. -/
def Obligations.EncodeDecodeRoundTrip : Prop :=
  ∀ (m : Masks), m.Ok → ∀ (w : Word) (i : Instr), decode m w = .ok i → encode m i = w

/-- O4. The opcode map of R55, each row by its match and mask, and R55's totality on request words. -/
def Obligations.OpcodeMapByMatchAndMask : Prop :=
  (∀ w : Req9, w &&& 0x100#9 = 0x000#9 → decode Masks.default (.req9 w) = .ok (.sendc (w.setWidth 8))) ∧
  (∀ w : Req9, w &&& 0x100#9 = 0x100#9 → decode Masks.default (.req9 w) = .ok (.sendd (w.setWidth 8))) ∧
  (∀ w : Req9, w &&& 0x100#9 = 0x000#9 ∨ w &&& 0x100#9 = 0x100#9) ∧
  (∀ b : Byte, b &&& 0x0E#8 = 0x08#8 →
    decode Masks.default (.bus8 b) = .ok (.busbE0 (b.extractLsb 7 4) (Mode.ofBool (b.getLsbD 0)))) ∧
  (∀ b : Byte, b &&& 0x0E#8 = 0x0C#8 →
    decode Masks.default (.bus8 b) = .ok (.busbE1 (b.extractLsb 7 4) (Mode.ofBool (b.getLsbD 0))))

/-! ## Operand assembly (30_encoding.md R52 to R54, R57; 40_send_byte.md R74) -/

/-- O5. The bus-byte function of R54: by phase, with the setup and the enable-low byte equal, undefined elsewhere, and R54's
table under the default masks. -/
def Obligations.BusByteByPhase : Prop :=
  (∀ (m : Masks), m.Ok → ∀ (v : Byte) (md : Mode) (p : Phase),
    let base : Byte := (if p.num ≤ 6 then v &&& 0xF0#8 else (v <<< 4) &&& 0xF0#8) ||| modeFlags m md
    (p.num ∈ [3, 9] → busByte m v md p = some (base ||| m.en)) ∧
    (p.num ∈ [1, 5, 7, 11] → busByte m v md p = some (base &&& ~~~m.en) ∧ base &&& ~~~m.en = base) ∧
    (p.num ∈ [0, 2, 4, 6, 8, 10, 12, 13] → busByte m v md p = none)) ∧
  (∀ h l : Nibble,
    [Phase.hSetup, .hEnHi, .hEnLo, .lSetup, .lEnHi, .lEnLo].map (busByte Masks.default (h ++ l) .command) =
      [some (h ++ 0x8#4), some (h ++ 0xC#4), some (h ++ 0x8#4), some (l ++ 0x8#4), some (l ++ 0xC#4), some (l ++ 0x8#4)]) ∧
  (∀ h l : Nibble,
    [Phase.hSetup, .hEnHi, .hEnLo, .lSetup, .lEnHi, .lEnLo].map (busByte Masks.default (h ++ l) .data) =
      [some (h ++ 0x9#4), some (h ++ 0xD#4), some (h ++ 0x9#4), some (l ++ 0x9#4), some (l ++ 0xD#4), some (l ++ 0x9#4)])

/-- O6. The bitwise laws R74 gives for the two setup bytes of a transfer, under every admitted choice of masks. -/
def Obligations.SetupByteLaws : Prop :=
  ∀ (m : Masks), m.Ok → ∀ (b : Byte) (md : Mode),
    let hi := hiSetup m b md
    let lo := loSetup m b md
    let flags := modeFlags m md
    hi.extractLsb 7 4 = b.extractLsb 7 4 ∧ lo.extractLsb 7 4 = b.extractLsb 3 0 ∧
    hi.extractLsb 3 0 = flags.extractLsb 3 0 ∧ lo.extractLsb 3 0 = flags.extractLsb 3 0 ∧
    (hi &&& 0xF0#8) ||| ((lo &&& 0xF0#8) >>> 4) = b ∧
    (hi ||| m.en) &&& 0xF0#8 = hi &&& 0xF0#8 ∧ hi &&& ~~~m.en = hi

/-- O7. The bytes NT4 can emit are exactly the 64 of R57, and whatever a step adds to the trace is one of them. -/
def Obligations.EmittedBytes : Prop :=
  (∀ b : Byte, (∃ v md p, busByte Masks.default v md p = some b) ↔ (b.getLsbD 3 = true ∧ b.getLsbD 1 = false)) ∧
  ((List.range 256).filter (fun n => n.testBit 3 && !n.testBit 1)).length = 64 ∧
  (∀ (s t : State), s.cfg.masks = Masks.default → step s = .next t →
    ∀ e ∈ t.trace, e ∈ s.trace ∨ (e.data.getLsbD 3 = true ∧ e.data.getLsbD 1 = false))

/-- O8. The byte NT4 puts on the bus is of class `BUSB.E0` in phases 1, 5, 7, 11 and of class `BUSB.E1` in phases 3, 9, with the
high nibble of `VAL` first, then the low one, and RS the mode (30_encoding.md R54, R55). -/
def Obligations.BusByteClassByPhase : Prop :=
  ∀ (m : Masks), m.Ok → ∀ (v : Byte) (md : Mode),
    (∀ p ∈ [Phase.hSetup, .hEnLo], (busByte m v md p).map (decodeBus m) = some (.ok (.busbE0 (v.extractLsb 7 4) md))) ∧
    (∀ p ∈ [Phase.lSetup, .lEnLo], (busByte m v md p).map (decodeBus m) = some (.ok (.busbE0 (v.extractLsb 3 0) md))) ∧
    (busByte m v md .hEnHi).map (decodeBus m) = some (.ok (.busbE1 (v.extractLsb 7 4) md)) ∧
    (busByte m v md .lEnHi).map (decodeBus m) = some (.ok (.busbE1 (v.extractLsb 3 0) md))

/-! ## The state and its outputs (10_state.md) -/

/-- O9. `PH` in 1..12 decodes as R13 says. -/
def Obligations.PhaseDecodesToNibbleAndStep : Prop :=
  ∀ p : Phase, 1 ≤ p.num → p.num ≤ 12 →
    p.nib = (p.num - 1) / 6 ∧ p.microStep = (p.num - 1) % 6 ∧
    (p.isWrite = true ↔ p.microStep ∈ [0, 2, 4]) ∧ (p.isWait = true ↔ p.microStep ∈ [1, 3, 5]) ∧
    (p.isWrite = true ↔ p.num % 2 = 1) ∧ (p.isWait = true ↔ p.num % 2 = 0)

/-- O10. The derived flags are the functions of `PH` that R18 gives, and exactly one of the three is 1. -/
def Obligations.ExactlyOneDerivedFlag : Prop :=
  ∀ s : State,
    s.ready = decide (s.ph.num = 0) ∧ s.busy = decide (1 ≤ s.ph.num ∧ s.ph.num ≤ 12) ∧ s.faulted = decide (s.ph.num = 13) ∧
    s.ready.toNat + s.busy.toNat + s.faulted.toNat = 1

/-- O11. The outputs of R99: functions of the state before the tick, no input among what they depend on. -/
def Obligations.OutputsFromStateOnly : Prop :=
  ∀ s : State,
    s.outputs.reqReady = decide (s.ph.num = 0) ∧ s.outputs.busy = decide (1 ≤ s.ph.num ∧ s.ph.num ≤ 12) ∧
    s.outputs.fault = decide (s.ph.num = 13) ∧ s.outputs.done = s.done ∧
    s.outputs.busWr = decide (s.ph.num ∈ [1, 3, 5, 7, 9, 11]) ∧ s.outputs.busAddr = 0x27#7 ∧
    (s.outputs.busWr = true → s.outputs.busWdata = busByte s.cfg.masks s.val s.mode s.ph ∧ s.outputs.busWdata ≠ none) ∧
    (s.outputs.busWr = false → s.outputs.busWdata = none) ∧
    (∀ is, ({ s with inputs := is }).outputs = s.outputs)

/-- O12. What the spec gives for the state after reset (10_state.md R27), for every configuration. `VAL`, `MODE`, `CNT` are
not spoken of: their values there are the model's choice (log 1). -/
def Obligations.ResetLeavesIdle : Prop :=
  ∀ c : Config,
    let s := State.resetOf c
    s.ph.num = 0 ∧ s.done = false ∧ s.faulted = false ∧ s.busy = false ∧ s.ready = true ∧
    s.busWr = false ∧ s.outputs.busAddr = 0x27#7 ∧ s.outputs.busWdata = none ∧ s.xp = c.xpInit ∧ s.trace = [] ∧ s.rx.rxn = none

/-! ## The tick (41_pulse_sequencer.md) -/

/-- O13. Idle and acceptance, R91. -/
def Obligations.IdleAcceptsRequest : Prop :=
  (∀ (i : TickIn) (s : State), s.ph.num = 0 → i.rst = false →
    s.outputs.reqReady = true ∧
    (i.reqValid = true →
      tick i s = { s with val := i.reqValue, mode := i.reqMode, ph := .hSetup, done := false } ∧
      (tick i s).outputs.busWr = true) ∧
    (i.reqValid = false → tick i s = { s with done := false })) ∧
  (∀ (i : TickIn) (s : State), s.ph.num ≠ 0 → i.rst = false →
    (tick i s).val = s.val ∧ (tick i s).mode = s.mode ∧
    ∀ (q : Bool) (m : Mode) (v : Byte), tick { i with reqValid := q, reqMode := m, reqValue := v } s = tick i s)

/-- O14. A write that completes `ok`, R92; what the reference receiver makes of it is 40_send_byte.md R79's. -/
def Obligations.WriteCompletesOk : Prop :=
  ∀ (i : TickIn) (s : State), s.ph.num ∈ [1, 3, 5, 7, 9, 11] → i.rst = false → i.busAck = true → i.busErr = false →
    ∃ v, s.busWdata = some v ∧ s.outputs.busWr = true ∧ s.outputs.busAddr = 0x27#7 ∧
      tick i s = { s with
        trace := s.trace ++ [{ addr := 0x27#7, data := v, result := .ok }]
        xp := v
        rx := receive s.cfg.masks v s.rx
        cnt := s.cfg.waitTicks
        ph := s.ph.next
        done := false } ∧
      (tick i s).ph.num = s.ph.num + 1

/-- O15. An unanswered write, R93 and R143: however many ticks pass without an acknowledge and without reset, nothing changes but
`DONE`, the same transaction stays requested, and there is no fault. -/
def Obligations.UnansweredWriteHangs : Prop :=
  ∀ (is : List TickIn) (s : State), s.ph.num ∈ [1, 3, 5, 7, 9, 11] → NoReset is → (∀ i ∈ is, i.busAck = false) →
    is ≠ [] →
    ticks is s = { s with done := false } ∧ (ticks is s).faulted = false ∧ (ticks is s).busy = true ∧
    (ticks is s).outputs.busWr = true ∧ (ticks is s).outputs.busAddr = s.outputs.busAddr ∧
    (ticks is s).outputs.busWdata = s.outputs.busWdata

/-- O16. A write that completes with `BusError` (41_pulse_sequencer.md R94), the entry into the fault state (60_exceptions.md R144) and
what follows until reset (41_pulse_sequencer.md R98): `XP` may be anything after it. That the model's own counter of draws advances is
the model's choice (log 2), and that the drawn `XP` is no event of the receiver is its reading (log 11). -/
def Obligations.FailedWriteEntersFault : Prop :=
  ∀ (i : TickIn) (s : State), s.ph.num ∈ [1, 3, 5, 7, 9, 11] → i.rst = false → i.busAck = true → i.busErr = true →
    ∃ v x, s.busWdata = some v ∧
      tick i s = { s with
        trace := s.trace ++ [{ addr := 0x27#7, data := v, result := .err }]
        xp := x
        draws := s.draws + 1
        ph := .fault
        done := false } ∧
      ∀ is, NoReset is →
        ticks is (tick i s) = tick i s ∧ (ticks is (tick i s)).outputs.fault = true ∧
        (ticks is (tick i s)).outputs.reqReady = false ∧ (ticks is (tick i s)).outputs.busWr = false

/-- O17. The fault flag, R16: set by exactly one event, cleared only by reset, and while it is set nothing is written or
accepted. -/
def Obligations.FaultFlagSetAndCleared : Prop :=
  (∀ s : State, s.faulted = decide (s.ph.num = 13) ∧ s.outputs.fault = s.faulted) ∧
  (∀ (i : TickIn) (s : State), s.faulted = false →
    ((tick i s).faulted = true ↔ i.rst = false ∧ s.busWr = true ∧ i.busAck = true ∧ i.busErr = true)) ∧
  (∀ (i : TickIn) (s : State), s.faulted = true →
    ((tick i s).faulted = false ↔ i.rst = true) ∧ s.busWr = false ∧ s.ready = false ∧
    (tick i s).trace = s.trace ∧ (i.rst = false → (tick i s).val = s.val ∧ (tick i s).mode = s.mode))

/-- O18. The wait phase, R95: it counts down, advances at 0, lasts exactly `WAIT_TICKS + 1` ticks from its entry, and reads neither
the bus nor the request port. -/
def Obligations.WaitPhaseCountsDown : Prop :=
  (∀ (i : TickIn) (s : State), s.ph.num ∈ [2, 4, 6, 8, 10, 12] → i.rst = false →
    s.outputs.busWr = false ∧
    (s.cnt ≠ 0 → tick i s = { s with cnt := s.cnt - 1, done := false }) ∧
    (s.cnt = 0 → s.ph.num ≠ 12 →
      tick i s = { s with ph := s.ph.next, done := false } ∧ (tick i s).ph.num = s.ph.num + 1 ∧ (tick i s).cnt = 0) ∧
    (∀ j : TickIn, j.rst = false → tick j s = tick i s)) ∧
  (∀ (is : List TickIn) (s : State), s.ph.num ∈ [2, 4, 6, 8, 10, 12] → s.cnt = s.cfg.waitTicks → NoReset is →
    (is.length ≤ s.cfg.waitTicks → (ticks is s).ph = s.ph) ∧
    (is.length = s.cfg.waitTicks + 1 → (ticks is s).ph = s.ph.next))

/-- O19. Completion, R97: the tick that ends the last wait gives `DONE`; it lasts one tick, in which NT4 is ready again. -/
def Obligations.CompletionPulsesDone : Prop :=
  ∀ (i : TickIn) (s : State), s.ph.num = 12 → s.cnt = 0 → i.rst = false →
    tick i s = { s with ph := .idle, done := true } ∧ (tick i s).outputs.reqReady = true ∧
    ∀ j : TickIn, (tick j (tick i s)).done = false ∧
      (j.rst = false → j.reqValid = true →
        tick j (tick i s) = { tick i s with val := j.reqValue, mode := j.reqMode, ph := .hSetup, done := false })

/-- O20. The fault state, R98: nothing changes until reset, whatever the inputs, and a run that ends there is not final. -/
def Obligations.FaultStateIsSticky : Prop :=
  (∀ (is : List TickIn) (s : State), s.ph.num = 13 → NoReset is → is ≠ [] →
    ticks is s = { s with done := false } ∧ (ticks is s).outputs.busWr = false ∧
    (ticks is s).outputs.reqReady = false ∧ (ticks is s).outputs.fault = true) ∧
  (∀ (prog : List (Mode × Byte)) (is : List TickIn) (s : State), (ticks is s).ph.num = 13 → ¬ FinalEnd prog is s)

/-- O21. Ignored inputs, R101. -/
def Obligations.IgnoredInputs : Prop :=
  ∀ (i : TickIn) (s : State),
    (s.ph.num ≠ 0 → ∀ (q : Bool) (m : Mode) (v : Byte),
      tick { i with reqValid := q, reqMode := m, reqValue := v } s = tick i s) ∧
    (s.ph.num ∉ [1, 3, 5, 7, 9, 11] → ∀ a e : Bool, tick { i with busAck := a, busErr := e } s = tick i s) ∧
    (i.busAck = false → ∀ e : Bool, tick { i with busErr := e } s = tick i s)

/-- O22. The transition table of `PH` with its other effects, R103. -/
def Obligations.TransitionTable : Prop :=
  ∀ (i : TickIn) (s : State),
    let t := tick i s
    (i.rst = true → t.ph.num = 0) ∧
    (i.rst = false →
      (s.ph.num = 0 → i.reqValid = true → t.ph.num = 1 ∧ t.val = i.reqValue ∧ t.mode = i.reqMode) ∧
      (s.ph.num = 0 → i.reqValid = false → t.ph.num = 0) ∧
      (s.ph.num ∈ [1, 3, 5, 7, 9, 11] → i.busAck = true → i.busErr = false →
        t.ph.num = s.ph.num + 1 ∧ t.cnt = s.cfg.waitTicks ∧
        ∃ v, s.busWdata = some v ∧ t.xp = v ∧ t.trace = s.trace ++ [{ addr := 0x27#7, data := v, result := .ok }]) ∧
      (s.ph.num ∈ [1, 3, 5, 7, 9, 11] → i.busAck = true → i.busErr = true →
        t.ph.num = 13 ∧
        ∃ v, s.busWdata = some v ∧ t.trace = s.trace ++ [{ addr := 0x27#7, data := v, result := .err }]) ∧
      (s.ph.num ∈ [1, 3, 5, 7, 9, 11] → i.busAck = false → t.ph.num = s.ph.num) ∧
      (s.ph.num ∈ [2, 4, 6, 8, 10, 12] → s.cnt ≠ 0 → t.ph.num = s.ph.num ∧ t.cnt = s.cnt - 1) ∧
      (s.ph.num ∈ [2, 4, 6, 8, 10] → s.cnt = 0 → t.ph.num = s.ph.num + 1) ∧
      (s.ph.num = 12 → s.cnt = 0 → t.ph.num = 0 ∧ t.done = true) ∧
      (s.ph.num = 13 → t.ph.num = 13))

/-- O23. A reset tick, R160 with R162's exception for `XP`: it wins over every other input; `VAL`, `MODE`, `CNT` and, in a write phase,
`XP` may be anything after it; a request held on the port in the same tick is not accepted, and the first tick without reset is
an idle tick. That the model's counter of draws advances is the model's choice (log 2), that the reference receiver is kept is its
reading (log 11), and the kept trace is 10_state.md R27's. -/
def Obligations.ResetTickAbandons : Prop :=
  ∀ (i : TickIn) (s : State), i.rst = true →
    (∃ v m c x, c < 2 ^ s.cfg.cntW ∧ (s.busWr = false → x = s.xp) ∧
      tick i s = { s with val := v, mode := m, cnt := c, ph := .idle, done := false, xp := x, draws := s.draws + 1 }) ∧
    (∀ j : TickIn, j.rst = true → tick j s = tick i s) ∧
    (tick i s).outputs.busWr = false ∧ (tick i s).outputs.reqReady = true ∧
    ∀ j : TickIn, j.rst = false →
      (j.reqValid = false → (tick j (tick i s)).ph = .idle) ∧ (j.reqValid = true → (tick j (tick i s)).ph = .hSetup)

/-- O24. A reset in the middle of an enable pulse leaves the enable line high (R162): in `H_WAIT2` and `L_WAIT2`, under the
machine's invariant. -/
def Obligations.ResetInPulseLeavesEnableHigh : Prop :=
  ∀ (i : TickIn) (s : State), s.cfg.masks.Ok → Inv s → s.ph.num ∈ [4, 10] → i.rst = true →
    lineHigh s.cfg.masks.en (tick i s).xp = true ∧ (tick i s).xp = s.xp ∧ (tick i s).trace = s.trace ∧
    (tick i s).done = false ∧ (tick i s).ph = .idle

/-- O25. Minimum spacing, R104: after a write has completed `ok`, the next write is requested no sooner than `T_WAIT_MIN` later, if
no reset comes between. -/
def Obligations.WritesSpacedByWait : Prop :=
  ∀ (i : TickIn) (s : State) (is : List TickIn), s.cfg.TimingOk →
    s.busWr = true → i.rst = false → i.busAck = true → i.busErr = false → NoReset is →
    (ticks is (tick i s)).busWr = true →
    s.cfg.waitTicks + 1 ≤ is.length ∧ tWaitMinPs ≤ is.length * s.cfg.tClkPs

/-- O26. The exact tick count of a transfer, R175: the accepting tick is tick 0, every write is acknowledged at the `l`-th tick of its
phase, and the completing tick is tick `6 * (l + WAIT_TICKS + 1)`. -/
def Obligations.TransferTickCount : Prop :=
  ∀ (s : State) (a : TickIn) (l : Nat), s.ph.num = 0 → a.rst = false → a.reqValid = true → 1 ≤ l →
    let is := Env.regular s.cfg.waitTicks l 6
    is.length = 6 * (l + s.cfg.waitTicks + 1) ∧
    (ticks is (tick a s)).ph = .idle ∧ (ticks is (tick a s)).done = true ∧
    ∀ n, n < is.length → (ticks (is.take n) (tick a s)).busy = true

/-- O27. What the operand latches and the counter hold while NT4 is idle is read by nothing (10_state.md R10, R15, R27): two idle
states that differ only there run alike. -/
def Obligations.IdleLatchesAreUnread : Prop :=
  ∀ (is : List TickIn) (s : State) (v : Byte) (m : Mode) (c : Nat), s.ph.num = 0 →
    let s' : State := { s with val := v, mode := m, cnt := c }
    (ticks is s').outputs = (ticks is s).outputs ∧ (ticks is s').ph = (ticks is s).ph ∧
    (ticks is s').trace = (ticks is s).trace ∧ (ticks is s').xp = (ticks is s).xp ∧
    (ticks is s').rx = (ticks is s).rx ∧ tickLabels is s' = tickLabels is s

/-- O28. A transfer ends if the bus answers every write (premise `BusAnswers`), never with an error, and there is no reset
(70_reset_and_hazards.md R176). -/
def Obligations.AnsweredTransferEnds : Prop :=
  ∀ (env : Nat → TickIn) (s : State), s.busy = true → (∀ n, (env n).rst = false) → (∀ n, (env n).busErr = false) →
    BusAnswers env s → ∃ n, (stateAt env s n).ph = .idle ∧ (stateAt env s n).done = true

/-! ## The instructions (40_send_byte.md) -/

/-- O29. The meaning of an accepted request, R72: if all six writes succeed, `SENDC` and `SENDD` complete with exactly the six trace
entries, the operands latched, `DONE` given and `PH` back at 0, and nothing else changed but the reference receiver, as R79 says.
(An undisturbed tick has no reset and violates no launch premise, log 14; `requestInstr` is `SENDC` for Command and `SENDD` for
Data.) -/
def Obligations.RequestCompletesWithSixWrites : Prop :=
  ∀ (s : State) (md : Mode) (b : Byte) (rest : List TickIn), s.cfg.masks.Ok →
    s.ph = .idle → s.nextIn.disturbed = false → Env.okWrites s.cfg.waitTicks 6 s.inputs.tail = some rest →
    let flags := s.cfg.masks.bl ||| (if md = .data then s.cfg.masks.rs else 0#8)
    let hi := (b &&& 0xF0#8) ||| flags
    let lo := ((b <<< 4) &&& 0xF0#8) ||| flags
    let en := s.cfg.masks.en
    let bytes := [hi, hi ||| en, hi &&& ~~~en, lo, lo ||| en, lo &&& ~~~en]
    exec (requestInstr md b) s =
      .next { s with
        val := b
        mode := md
        ph := .idle
        cnt := 0
        done := true
        xp := lo &&& ~~~en
        trace := s.trace ++ bytes.map (fun v => { addr := 0x27#7, data := v, result := .ok })
        rx := receiveAll s.cfg.masks bytes s.rx
        inputs := rest }

/-- O30. `SENDC value`, R70, under the default masks: the six bytes with RS = 0, on success and on a failure at any of the six
writes, and R70's corner cases. -/
def Obligations.SendcTransfersCommandByte : Prop :=
  (∀ (s : State) (v : Byte) (rest : List TickIn), s.cfg.masks = Masks.default →
    s.ph = .idle → s.nextIn.disturbed = false → Env.okWrites s.cfg.waitTicks 6 s.inputs.tail = some rest →
    let hi := (v &&& 0xF0#8) ||| 0x08#8
    let lo := ((v <<< 4) &&& 0xF0#8) ||| 0x08#8
    ∃ t, exec (.sendc v) s = .next t ∧
      t.trace = s.trace ++ [hi, hi ||| 0x04#8, hi, lo, lo ||| 0x04#8, lo].map okTxn ∧
      (∀ x ∈ [hi, hi ||| 0x04#8, lo, lo ||| 0x04#8], x.getLsbD 0 = false) ∧
      t.val = v ∧ t.mode = .command ∧ t.ph = .idle ∧ t.done = true ∧ t.xp = lo ∧ t.inputs = rest ∧ t.cfg = s.cfg) ∧
  (∀ (s : State) (v : Byte) (k : Nat) (rest : List TickIn), s.cfg.masks = Masks.default → k < 6 →
    s.ph = .idle → s.nextIn.disturbed = false → Env.failsAfter s.cfg.waitTicks k s.inputs.tail = some rest →
    ∃ t, exec (.sendc v) s = .next t ∧ t.faulted = true ∧ t.done = false) ∧
  transferBytes Masks.default 0x00#8 .command = [0x08#8, 0x0C#8, 0x08#8, 0x08#8, 0x0C#8, 0x08#8] ∧
  transferBytes Masks.default 0xFF#8 .command = [0xF8#8, 0xFC#8, 0xF8#8, 0xF8#8, 0xFC#8, 0xF8#8] ∧
  transferBytes Masks.default 0x33#8 .command = [0x38#8, 0x3C#8, 0x38#8, 0x38#8, 0x3C#8, 0x38#8] ∧
  transferBytes Masks.default 0x40#8 .command = [0x48#8, 0x4C#8, 0x48#8, 0x08#8, 0x0C#8, 0x08#8]

/-- O31. `SENDD value`, R71, under the default masks: the six bytes with RS = 1, on success and on a failure at any of the six
writes, R71's corner cases, and the difference from `SENDC` in bit 0 only. -/
def Obligations.SenddTransfersDataByte : Prop :=
  (∀ (s : State) (v : Byte) (rest : List TickIn), s.cfg.masks = Masks.default →
    s.ph = .idle → s.nextIn.disturbed = false → Env.okWrites s.cfg.waitTicks 6 s.inputs.tail = some rest →
    let hi := (v &&& 0xF0#8) ||| 0x09#8
    let lo := ((v <<< 4) &&& 0xF0#8) ||| 0x09#8
    ∃ t, exec (.sendd v) s = .next t ∧
      t.trace = s.trace ++ [hi, hi ||| 0x04#8, hi, lo, lo ||| 0x04#8, lo].map okTxn ∧
      (∀ x ∈ [hi, hi ||| 0x04#8, lo, lo ||| 0x04#8], x.getLsbD 0 = true) ∧
      t.val = v ∧ t.mode = .data ∧ t.ph = .idle ∧ t.done = true ∧ t.xp = lo ∧ t.inputs = rest ∧ t.cfg = s.cfg) ∧
  (∀ (s : State) (v : Byte) (k : Nat) (rest : List TickIn), s.cfg.masks = Masks.default → k < 6 →
    s.ph = .idle → s.nextIn.disturbed = false → Env.failsAfter s.cfg.waitTicks k s.inputs.tail = some rest →
    ∃ t, exec (.sendd v) s = .next t ∧ t.faulted = true ∧ t.done = false) ∧
  transferBytes Masks.default 0x00#8 .data = [0x09#8, 0x0D#8, 0x09#8, 0x09#8, 0x0D#8, 0x09#8] ∧
  transferBytes Masks.default 0xFF#8 .data = [0xF9#8, 0xFD#8, 0xF9#8, 0xF9#8, 0xFD#8, 0xF9#8] ∧
  transferBytes Masks.default 0x41#8 .data = [0x49#8, 0x4D#8, 0x49#8, 0x19#8, 0x1D#8, 0x19#8] ∧
  (∀ v : Byte, transferBytes Masks.default v .data = (transferBytes Masks.default v .command).map (· ||| 0x01#8) ∧
    ∀ x ∈ transferBytes Masks.default v .command, x &&& 0x01#8 = 0#8)

/-- O32. Failure inside a transfer, R78: if write `k + 1` of the six returns `BusError`, the trace gains `k` entries with `ok` and one
with `err`; there is no `DONE`, and for every later tick and request until reset the trace gains nothing. -/
def Obligations.FailureEndsTransfer : Prop :=
  ∀ (s : State) (md : Mode) (b : Byte) (k : Nat) (rest : List TickIn), s.cfg.masks.Ok → k < 6 →
    s.ph = .idle → s.nextIn.disturbed = false → Env.failsAfter s.cfg.waitTicks k s.inputs.tail = some rest →
    let bytes := transferBytes s.cfg.masks b md
    ∃ t v, exec (requestInstr md b) s = .next t ∧
      bytes[k]? = some v ∧ t.trace = s.trace ++ (bytes.take k).map okTxn ++ [errTxn v] ∧
      t.ph = .fault ∧ t.done = false ∧ t.val = b ∧ t.mode = md ∧ t.cfg = s.cfg ∧ t.inputs = rest ∧
      (∀ is, NoReset is → (ticks is t).trace = t.trace ∧ (ticks is t).done = false) ∧
      (∀ (md' : Mode) (b' : Byte), t.nextIn.disturbed = false →
        ∃ u, exec (requestInstr md' b') t = .next u ∧ u.trace = t.trace ∧ u.done = false)

/-- O33. The transfer at the tick level is `SendByte` at the transaction level (R72, R73, R78): whatever the bus answers and when, the
entries an undisturbed transfer adds to the trace are the ones `runMicro` gives for their own results, and it ends as
`runMicro` ends: failed in the fault state, complete in `IDLE` (or in the last wait, where the inputs end there), hanging in
between. That a request runs as far as the inputs last is the model's choice (log 8). -/
def Obligations.TransferRefinesSendByte : Prop :=
  ∀ (s : State) (md : Mode) (b : Byte), s.cfg.masks.Ok → s.ph = .idle →
    NoReset s.inputs → BusExclusive s.inputs → BusReady s.inputs → SingleDriver s.inputs →
    ∃ (t : State) (new : List Txn) (e : TransferEnd),
      exec (requestInstr md b) s = .next t ∧
      t.trace = s.trace ++ new ∧
      runMicro (sendByte s.cfg.masks b md) (new.map Txn.result) = (new, e) ∧
      (e = .failed ↔ t.ph = .fault) ∧ (e = .complete ↔ t.ph = .idle ∨ t.ph = .lWait3) ∧
      (t.ph = .idle → t.done = true)

/-- O34. A request presented while NT4 is not idle, or in a reset tick, is ignored: `SENDC` and `SENDD` then take the tick's own
course (41_pulse_sequencer.md R101; 70_reset_and_hazards.md R160). -/
def Obligations.UnacceptedRequestIsIgnored : Prop :=
  ∀ (s : State) (v : Byte), s.ph ≠ .idle ∨ s.nextIn.rst = true → s.nextIn.violation = none →
    exec (.sendc v) s = .next s.advance ∧ exec (.sendd v) s = .next s.advance

/-- O35. The frame of `SENDC` and `SENDD`: the configuration never changes; the trace only grows, by transactions at 0x27; the
inputs are used up from the front; with no reset ahead, an accepted request leaves its operands latched, and if no write failed
the port latch holds the last byte written (or is unchanged where none was), the reference receiver has seen just these bytes
(40_send_byte.md R79) and no free value was drawn. The counter of draws is the model's own (log 2). -/
def Obligations.RequestFrame : Prop :=
  ∀ (s t : State) (md : Mode) (b : Byte),
    exec (requestInstr md b) s = .next t →
    t.cfg = s.cfg ∧ t.inputs <:+ s.inputs ∧
    ∃ new, t.trace = s.trace ++ new ∧ (∀ e ∈ new, e.addr = 0x27#7) ∧
      (s.ph = .idle → NoReset s.inputs →
        t.val = b ∧ t.mode = md ∧
        ((∀ e ∈ new, e.result = .ok) →
          t.xp = (new.getLast?.map Txn.data).getD s.xp ∧ t.draws = s.draws ∧
          t.rx = receiveAll s.cfg.masks (new.map Txn.data) s.rx))

/-- O36. `BUSB.E0`, the byte of a setup or enable-low write (R31, R54): in a write phase of its class, where NT4 requests this byte,
an `ok` answer completes the write, which the reference receiver sees (40_send_byte.md R79); no answer changes nothing but `DONE`;
an error answer enters the fault state. That the row means one tick of `BusWrite` is the model's reading (log 10); that the model's
own counter of draws advances is its choice (log 2), and that the drawn `XP` is no event of the receiver its reading (log 11). -/
def Obligations.BusbE0WritesByte : Prop :=
  ∀ (s : State) (d : Nibble) (r : Mode),
    s.busWdata = some (encodeBus s.cfg.masks d r false) → s.nextIn.disturbed = false →
    let v := encodeBus s.cfg.masks d r false
    (s.nextIn.busAck = true → s.nextIn.busErr = false →
      exec (.busbE0 d r) s = .next { s with
        trace := s.trace ++ [{ addr := 0x27#7, data := v, result := .ok }]
        xp := v
        rx := receive s.cfg.masks v s.rx
        cnt := s.cfg.waitTicks
        ph := s.ph.next
        done := false
        inputs := s.inputs.tail }) ∧
    (s.nextIn.busAck = false → exec (.busbE0 d r) s = .next { s with done := false, inputs := s.inputs.tail }) ∧
    (s.nextIn.busAck = true → s.nextIn.busErr = true →
      ∃ x, exec (.busbE0 d r) s = .next { s with
        trace := s.trace ++ [{ addr := 0x27#7, data := v, result := .err }]
        xp := x
        draws := s.draws + 1
        ph := .fault
        done := false
        inputs := s.inputs.tail })

/-- O37. `BUSB.E1`, the byte of an enable-high write (R31, R54): as O36, with the model's reading of the row (log 10), its own counter of
draws (log 2) and its reading that the drawn `XP` is no event of the reference receiver (40_send_byte.md R79, log 11). -/
def Obligations.BusbE1WritesByte : Prop :=
  ∀ (s : State) (d : Nibble) (r : Mode),
    s.busWdata = some (encodeBus s.cfg.masks d r true) → s.nextIn.disturbed = false →
    let v := encodeBus s.cfg.masks d r true
    (s.nextIn.busAck = true → s.nextIn.busErr = false →
      exec (.busbE1 d r) s = .next { s with
        trace := s.trace ++ [{ addr := 0x27#7, data := v, result := .ok }]
        xp := v
        rx := receive s.cfg.masks v s.rx
        cnt := s.cfg.waitTicks
        ph := s.ph.next
        done := false
        inputs := s.inputs.tail }) ∧
    (s.nextIn.busAck = false → exec (.busbE1 d r) s = .next { s with done := false, inputs := s.inputs.tail }) ∧
    (s.nextIn.busAck = true → s.nextIn.busErr = true →
      ∃ x, exec (.busbE1 d r) s = .next { s with
        trace := s.trace ++ [{ addr := 0x27#7, data := v, result := .err }]
        xp := x
        draws := s.draws + 1
        ph := .fault
        done := false
        inputs := s.inputs.tail })

/-- O38. Where the two bus byte classes stop for their byte: one that NT4 does not request, in a write phase or outside one, is another
agent's (20_memory.md R45, U5). And the one value the model may not read: `bus_wdata` while no write is requested (41_pulse_sequencer.md
R99, U11). The reading is the model's (log 10). -/
def Obligations.BusByteStops : Prop :=
  ∀ (s : State) (d : Nibble) (r : Mode),
    (s.busWdata ≠ some (encodeBus s.cfg.masks d r false) → exec (.busbE0 d r) s = .refused .busNotExclusive) ∧
    (s.busWdata ≠ some (encodeBus s.cfg.masks d r true) → exec (.busbE1 d r) s = .refused .busNotExclusive) ∧
    (s.busWr = false ↔ s.readBusWdata = .error .unspecifiedBusData) ∧
    (s.busWr = true → s.readBusWdata = .ok (busData s.cfg.masks s.val s.mode s.ph))

/-! ## The step -/

/-- O39. A step runs the decoded instruction: the request on the port of an idle NT4, or the byte NT4 puts on the bus; where neither
stands, or in a reset tick, one tick passes, if it violates no launch premise (log 14). What one step groups is the model's choice
(log 8). -/
def Obligations.StepRunsDecodedInstruction : Prop :=
  (∀ s : State, s.nextIn.rst = false → s.ready = true → s.nextIn.reqValid = true →
    ∀ i, decode s.cfg.masks (.req9 (encodeReq s.nextIn.reqMode s.nextIn.reqValue)) = .ok i → step s = exec i s) ∧
  (∀ (s : State) (b : Byte), s.nextIn.rst = false → s.busWdata = some b →
    ∀ i, decode s.cfg.masks (.bus8 b) = .ok i → step s = exec i s) ∧
  (∀ s : State, (s.nextIn.rst = true ∨ (s.ready = true ∧ s.nextIn.reqValid = false) ∨ s.ph.isWait = true ∨ s.faulted = true) →
    s.nextIn.violation = none → step s = .next s.advance)

/-- O40. A table row's bits, placed where the step fetches, are what the very next step runs, in every state of admitted masks (the
model's choice, log 8). -/
def Obligations.PlacedWordRunsNext : Prop :=
  ∀ (s : State) (nbits w : Nat) (i : Instr), s.cfg.masks.Ok → decodeBits s.cfg.masks nbits w = some i →
    step (s.withFetchWord nbits w) = exec i (s.withFetchWord nbits w)

/-- O41. A step is a number of ticks of the machine with its environment, at least one (41_pulse_sequencer.md R90); how many is the model's
choice (log 8). -/
def Obligations.StepIsTicks : Prop :=
  ∀ s t : State, step s = .next t → ∃ n, 1 ≤ n ∧ t = s.advanceN n

/-- O42. Under admitted masks, premises `BusExclusive` and `BusReady`, and a single driver of the request port, the machine never
stops (41_pulse_sequencer.md R90: in every state one case applies). -/
def Obligations.StepAlwaysAnswers : Prop :=
  ∀ s : State, s.cfg.masks.Ok → BusExclusive s.inputs → BusReady s.inputs → SingleDriver s.inputs → ∃ t, step s = .next t

/-- O43. The invariant holds after reset, for every configuration; the `CNT` there is the model's choice (log 1). -/
def Obligations.ResetMeetsInvariant : Prop := ∀ c : Config, Inv (State.resetOf c)

/-- O44. Every step keeps the invariant: the counter in its width, `DONE` only when idle, every transaction at 0x27 with a byte of
R57, the fault state entered by a failed write only, and the port latch equal to the last byte written throughout a transfer, and
the reference receiver's last value that of the last `ok` write (10_state.md R15, R16, R17; 20_memory.md R30, R41; 30_encoding.md
R57; 40_send_byte.md R79). That neither a drawn `XP` nor an NT4 reset is an event of the receiver, so that its last value is kept
there, is the model's reading of R79 (log 11). -/
def Obligations.StepKeepsInvariant : Prop :=
  ∀ s t : State, s.cfg.masks.Ok → Inv s → step s = .next t → Inv t

/-- O45. What no step does: change the configuration (10_state.md R19), rewrite the trace (10_state.md R25) or take back a
delivered byte, or put the counter of draws back. The counter is the model's own (log 2);
that the receiver keeps what it has across an NT4 reset is the model's reading of 40_send_byte.md R79 (log 11). -/
def Obligations.StepOnlyExtendsHistory : Prop :=
  ∀ s t : State, step s = .next t →
    t.cfg = s.cfg ∧ s.trace <+: t.trace ∧ s.rx.delivered <+: t.rx.delivered ∧ s.draws ≤ t.draws ∧ t.inputs <:+ s.inputs

/-! ## Programs and the receiver -/

/-- O46. A program whose requests are presented one after the other and whose writes all succeed adds exactly the six entries of each
request, in request order and contiguous, `6n` in all (R75, R120). -/
def Obligations.ProgramWritesInOrder : Prop :=
  ∀ (prog : List (Mode × Byte)) (s : State) (rest : List TickIn), s.cfg.masks.Ok → s.ph = .idle →
    Env.serves s.cfg.waitTicks prog s.inputs = some rest →
    ∃ n t, Sys2Proof.core.run n s = .next t ∧
      t.trace = s.trace ++ (prog.flatMap (fun q => transferBytes s.cfg.masks q.2 q.1)).map okTxn ∧
      t.trace.length = s.trace.length + 6 * prog.length ∧
      t.ph = .idle ∧ t.inputs = rest ∧ t.cfg = s.cfg ∧ (prog ≠ [] → t.done = true)

/-- O47. The reference receiver gets the bytes that were sent, R79: with `RXN` empty and the enable line low in the last value it saw
(`XP` at the start, or after the last `ok` write), no failed write and no reset, it delivers exactly the requests, in order, and ends with
`RXN` empty. -/
def Obligations.ReceiverGetsProgram : Prop :=
  ∀ (prog : List (Mode × Byte)) (s : State) (rest : List TickIn), s.cfg.masks.Ok → s.ph = .idle →
    lineHigh s.cfg.masks.en s.rx.line = false → s.rx.rxn = none →
    Env.serves s.cfg.waitTicks prog s.inputs = some rest →
    ∃ n t, Sys2Proof.core.run n s = .next t ∧ t.inputs = rest ∧ t.rx.rxn = none ∧ t.rx.delivered = s.rx.delivered ++ prog

/-- O48. Such a program's run ends, and its end is final (R178); it completes as many bytes as the program has. -/
def Obligations.ServedProgramEndsFinal : Prop :=
  ∀ (prog : List (Mode × Byte)) (s : State) (is : List TickIn), s.ph = .idle → NoFault s →
    Env.serves s.cfg.waitTicks prog is = some [] →
      FinalEnd prog is s ∧ completions is s = prog.length

/-! ## The event-level machine (41_pulse_sequencer.md R102, R107) -/

/-- O49. Every tick-level run projects onto an event-level run, and the two agree (R107). That a label carries the drawn byte, and that
agreement takes `VAL` and `MODE` in only while a transfer is in progress, is as log 16 reads R107. -/
def Obligations.TicksProjectOntoEvents : Prop :=
  ∀ (is : List TickIn) (s : State) (e : EState), s.cfg.TimingOk → Agrees s e →
    ∃ e', EState.run s.cfg.masks (tickLabels is s) e = some e' ∧ Agrees (ticks is s) e'

/-- O50. Every event whose drawn byte is the tick level's free value, a wait having exactly the length `(WAIT_TICKS + 1) * T_CLK`, is the
projection of ticks. An event with another drawn byte is left out: a draw of the tick level is one free value (log 2). Labels and
agreement are as log 16 reads them. -/
def Obligations.EventsAreRealizedByTicks : Prop :=
  ∀ (l : Label) (s : State) (e e' : EState), Agrees s e → e.step s.cfg.masks l = some e' →
    (∀ d, l = .wait d → d = (s.cfg.waitTicks + 1) * s.cfg.tClkPs) →
    (∀ x, l = .wrErr x ∨ l = .reset x → x = Config.freeXp s.draws) →
    ∃ is, tickLabels is s = [l] ∧ Agrees (ticks is s) e'

/-! ## The requester (42_command_macros.md, 70_reset_and_hazards.md) -/

/-- O51. `LOADGLYPHS`, R127: one Command byte 0x40, then the 64 rows as Data bytes, glyph by glyph; 65 bytes, 390 bus writes, at
least 195 ms. -/
def Obligations.LoadGlyphsExpansion : Prop :=
  ∀ set : List (List Byte), set.length = 8 → (∀ g ∈ set, g.length = 8) →
    ∃ items, Macro.expand MacroConsts.default (.loadGlyphs set) = .ok items ∧
      requestsOf items = (.command, 0x40#8) :: set.flatten.map (fun b => (Mode.data, b)) ∧
      (requestsOf items).length = 65 ∧ busWritesOf items = 390 ∧
      minPsOf items = 390 * tWaitMinPs ∧ 390 * tWaitMinPs = 195 * 1000000000

/-- O52. `TEXT`, R125: one Data byte for each character, in order, its ASCII code; `6 * len` bus writes; a string with a character
outside printable ASCII is refused. -/
def Obligations.TextExpansion : Prop :=
  ∀ (k : MacroConsts) (s : List Char),
    ((∀ c ∈ s, 0x20 ≤ c.toNat ∧ c.toNat ≤ 0x7E) →
      ∃ items, Macro.expand k (.text s) = .ok items ∧
        requestsOf items = s.map (fun c => (Mode.data, BitVec.ofNat 8 c.toNat)) ∧
        (requestsOf items).map (fun q => q.2.toNat) = s.map Char.toNat ∧ busWritesOf items = 6 * s.length) ∧
    ((∃ c ∈ s, c.toNat < 0x20 ∨ 0x7E < c.toNat) → Macro.expand k (.text s) = .error .notPrintable)

/-- O53. After `LOADGLYPHS` no `TEXT` and no `CODE` may come before a `SETPOS` (R130): any list of macros that has one is refused. That only
`SETPOS` ends it is the model's reading (log 9). -/
def Obligations.PositionRequiredAfterGlyphs : Prop :=
  ∀ (set : List (List Byte)) (ms : List Macro) (m : Macro), (∀ r c, Macro.setPos r c ∉ ms) →
    (∃ s, m = .text s) ∨ (∃ c, m = .code c) →
    ∃ e, Driver.run .ready (.loadGlyphs set :: ms ++ [m]) = .error e

/-- O54. In a run of NT4 with its requester, without reset, the requests accepted so far and those still to send are the program, in
order: none is lost, none is sent twice (R120, R171). That the requester keeps what it has not sent once `fault` = 1 is the model's
choice (log 12). -/
def Obligations.RequesterSendsInOrder : Prop :=
  ∀ (is : List TickIn) (y : System), NoReset is →
    System.accepted is y ++ requestsOf (System.run is y).req.items = requestsOf y.req.items

/-- O55. The pins a written bus byte puts on the lines (10_state.md R23, 30_encoding.md R51), under every admitted choice of masks:
the nibble on DB7..DB4, the backlight on, the read/write line low, the enable line and RS as the class says. -/
def Obligations.PinsOfBusByte : Prop :=
  ∀ (m : Masks), m.Ok → ∀ (d : Nibble) (r : Mode) (en : Bool),
    pinsOf m (encodeBus m d r en) =
      { db := d, backlight := true, enable := en, readWrite := false, rs := decide (r = .data) }

/-- O56. A tick at which another agent writes 0x27 has no meaning (20_memory.md R45, U5): every instruction, and every step, is then
refused by name. That it is a refusal of this name is the model's form (log 14). -/
def Obligations.ForeignWriteIsRefused : Prop :=
  ∀ s : State, s.nextIn.otherWrite ≠ none →
    (∀ i : Instr, exec i s = .refused .busNotExclusive) ∧ (s.cfg.masks.Ok → step s = .refused .busNotExclusive)

/-- O57. The requester presents a request only when the one before it is completed (42_command_macros.md R120): from a system in which a
transfer in progress is the requester's own and `DONE` is 1 only while NT4 is ready, whatever the bus and the reset source do, both stay
so, and at every tick at which it presents one NT4 is ready and accepts just that one unless reset. How the requester learns of the
completion is the model's choice (log 12). -/
def Obligations.RequesterAwaitsCompletion : Prop :=
  ∀ (is : List TickIn) (y : System), (y.nt4.busy = true → y.req.pending = true) →
    (y.nt4.done = true → y.nt4.ready = true) →
    let z := System.run is y
    (z.nt4.busy = true → z.req.pending = true) ∧ (z.nt4.done = true → z.nt4.ready = true) ∧
    ∀ i : TickIn, (z.inputs i).reqValid = true →
      z.nt4.busy = false ∧ z.nt4.ready = true ∧
      (i.rst = false → ∃ m v, z.req.items.head? = some (.send m v) ∧ tickLabel (z.inputs i) z.nt4 = some (.accept m v))

/-- O58. Once `fault` = 1 the requester can present nothing more (42_command_macros.md R131): whatever the bus does, until reset it
presents nothing, takes up no macro, and what it has not sent stays unsent. That it keeps the unsent part, and refuses a macro under
this name, is the model's choice (log 12). -/
def Obligations.RequesterStopsAtFault : Prop :=
  ∀ (is : List TickIn) (y : System), y.nt4.faulted = true → NoReset is →
    let z := System.run is y
    z.nt4.faulted = true ∧ z.nt4.trace = y.nt4.trace ∧ z.req.items = y.req.items ∧
    (∀ i : TickIn, (z.inputs i).reqValid = false) ∧
    (∀ (k : MacroConsts) (m : Macro), z.load k m = .error .transmissionFailed)

/-- O59. The reference receiver follows R79 (40_send_byte.md) over every run of ticks, with failed writes and resets in it: what it
compares and takes is a function of the values of `XP` after the `ok` writes alone. The rule is R79's, under the default masks. That
neither a drawn `XP` nor an NT4 reset is an event of it is the model's reading (log 11). -/
def Obligations.ReceiverFollowsOkWrites : Prop :=
  (∀ (x : Byte) (r : Receiver),
    receive Masks.default x r =
      if r.line.getLsbD 2 = true ∧ x.getLsbD 2 = false then
        match r.rxn with
        | none => { line := x, rxn := some (Mode.ofBool (r.line.getLsbD 0), r.line.extractLsb 7 4), delivered := r.delivered }
        | some (_, nh) =>
          { line := x, rxn := none,
            delivered := r.delivered ++ [(Mode.ofBool (r.line.getLsbD 0), nh ++ r.line.extractLsb 7 4)] }
      else { line := x, rxn := r.rxn, delivered := r.delivered }) ∧
  (∀ (is : List TickIn) (s : State), ∃ new, (ticks is s).trace = s.trace ++ new ∧
    (ticks is s).rx = receiveAll s.cfg.masks ((new.filter (fun e => e.result == .ok)).map Txn.data) s.rx)

/-- O60. A tick at which NT4 is out of reset and RegisterBus is not set up has no meaning (60_exceptions.md R141, U16), and neither has one
at which a second agent drives the request port (60_exceptions.md R150, 70_reset_and_hazards.md R169, U4): every step is then refused by
name, and so are the requests and the byte NT4 requests. The names and their order are the model's form (log 14). -/
def Obligations.ViolatedPremiseIsRefused : Prop :=
  ∀ (s : State) (x : Refusal), s.nextIn.otherWrite = none →
    (s.nextIn.rst = false ∧ s.nextIn.busReady = false ∧ x = .busNotReady) ∨
      ((s.nextIn.rst = false → s.nextIn.busReady = true) ∧ s.nextIn.otherRequest ≠ none ∧ x = .notOneRequester) →
    (∀ (md : Mode) (v : Byte), exec (requestInstr md v) s = .refused x) ∧
    (∀ (d : Nibble) (r : Mode),
      (s.busWdata = some (encodeBus s.cfg.masks d r false) → exec (.busbE0 d r) s = .refused x) ∧
      (s.busWdata = some (encodeBus s.cfg.masks d r true) → exec (.busbE1 d r) s = .refused x)) ∧
    (s.cfg.masks.Ok → step s = .refused x)
end

