-- ==== Sys2Proof/Laws/EventLevel.lean ====
section
/-! SUPPORT. Runs of events, of labels, of completions and of the last `DONE` over joined stretches of ticks. -/

namespace Sys2Proof.Machine

theorem EState.run_append (ms : Masks) (k l : List Label) (e : EState) :
    EState.run ms (k ++ l) e = (EState.run ms k e).bind (EState.run ms l) := by
  induction k generalizing e with
  | nil => rfl
  | cons a k ih => simp only [List.cons_append, EState.run]; split <;> simp [ih]

theorem tickLabels_append (is js : List TickIn) (s : State) :
    tickLabels (is ++ js) s = tickLabels is s ++ tickLabels js (ticks is s) := by
  induction is generalizing s with
  | nil => rfl
  | cons i is ih => simp [tickLabels, ticks, ih]

theorem completions_append (is js : List TickIn) (s : State) :
    completions (is ++ js) s = completions is s + completions js (ticks is s) := by
  induction is generalizing s with
  | nil => simp [completions, ticks]
  | cons i is ih => simp [completions, ticks, ih]; omega

theorem lastDone_append (d : Bool) (is js : List TickIn) (s : State) :
    lastDone d (is ++ js) s = lastDone (lastDone d is s) js (ticks is s) := by
  induction is generalizing d s with
  | nil => rfl
  | cons i is ih => exact ih _ (tick i s)

end Sys2Proof.Machine
end

