-- ==== Sys2Proof/Laws/Macros.lean ====
section
/-! SUPPORT. The expansions of the requester's macros, item by item: requests, bus writes, least time. -/

namespace Sys2Proof

@[simp] theorem requestsOf_nil : requestsOf [] = [] := rfl

@[simp] theorem requestsOf_send_cons (m : Mode) (v : Byte) (l : List Item) :
    requestsOf (.send m v :: l) = (m, v) :: requestsOf l := rfl

@[simp] theorem requestsOf_delay_cons (l : List Item) : requestsOf (.delay :: l) = requestsOf l := rfl

@[simp] theorem requestsOf_append (l k : List Item) : requestsOf (l ++ k) = requestsOf l ++ requestsOf k := by
  simp [requestsOf]

@[simp] theorem requestsOf_map_send (m : Mode) (l : List Byte) :
    requestsOf (l.map (Item.send m)) = l.map (fun b => (m, b)) := by
  induction l with
  | nil => rfl
  | cons a l ih => simpa using ih

theorem minPsOf_cons (i : Item) (l : List Item) : minPsOf (i :: l) = i.minPs + minPsOf l := by
  simp [minPsOf]

/-- The least time of a run of requests. -/
theorem minPsOf_map_send (m : Mode) (l : List Byte) : minPsOf (l.map (Item.send m)) = 6 * l.length * tWaitMinPs := by
  induction l with
  | nil => simp [minPsOf]
  | cons a l ih =>
    rw [List.map_cons, minPsOf_cons, ih, List.length_cons, Item.minPs]
    generalize tWaitMinPs = t
    ring

/-- A string of printable ASCII is what `TEXT` takes (42_command_macros.md R125). -/
theorem all_printable_iff (s : List Char) : s.all printable = true ↔ ∀ c ∈ s, 0x20 ≤ c.toNat ∧ c.toNat ≤ 0x7E := by
  simp [printable]

/-- A glyph set of the right shape has 64 rows (42_command_macros.md R127). -/
theorem glyphSetWf_length {set : List (List Byte)} (h : glyphSetWf set = true) : set.flatten.length = 64 := by
  simp only [glyphSetWf, Bool.and_eq_true, beq_iff_eq, List.all_eq_true] at h
  obtain ⟨h8, hg⟩ := h
  have : set.map List.length = List.replicate set.length 8 := by
    rw [List.eq_replicate_iff]; simpa using hg
  rw [List.length_flatten, this, h8]
  decide

end Sys2Proof
end

