-- ==== Sys2Proof/Laws/Masks.lean ====
section
/-! SUPPORT. The admitted masks are finitely many (00_scope.md R8), so that a claim over all of them is a check over a list; and the
bus byte's fields under each of them. -/

namespace Sys2Proof

/-- The single-bit masks in bits 3:0. -/
def flagBits : List Byte := [0x01#8, 0x02#8, 0x04#8, 0x08#8]

/-- Every choice of four different bits of bits 3:0 for the four flags (00_scope.md R8). -/
def Masks.admitted : List Masks :=
  flagBits.flatMap fun r => flagBits.flatMap fun w => flagBits.flatMap fun e => flagBits.filterMap fun b =>
    if [r, w, e, b].Nodup then some { rs := r, rw := w, en := e, bl := b } else none

/-- A one-hot byte with bits 7:4 clear is one of four. -/
theorem OneHot.mem_flagBits : ∀ b : Byte, OneHot b → b &&& 0xF0#8 = 0#8 → b ∈ flagBits := by decide

/-- A part of a union inside bits 3:0 lies inside bits 3:0. -/
theorem low_of_or_eq (x y : Byte) (h : x ||| y = 0x0F#8) : x &&& 0xF0#8 = 0#8 := by
  have hxy : (x ||| y) &&& 0xF0#8 = 0#8 := by rw [h]; decide
  ext i hi
  have := congrArg (·.getLsbD i) hxy
  simp only [BitVec.getLsbD_and, BitVec.getLsbD_or, BitVec.getLsbD_zero] at this
  simp only [BitVec.getElem_and, BitVec.getElem_zero]
  grind

/-- The constraint of R8 admits exactly the listed choices. -/
theorem Masks.Ok.mem_admitted {m : Masks} (h : m.Ok) : m ∈ Masks.admitted := by
  obtain ⟨⟨h1, h2, h3, h4⟩, hd, hu⟩ := h
  obtain ⟨r, w, e, b⟩ := m
  simp only at h1 h2 h3 h4 hd hu
  have k1 := OneHot.mem_flagBits r h1 (low_of_or_eq r (w ||| e ||| b) (by rw [← hu]; ac_rfl))
  have k2 := OneHot.mem_flagBits w h2 (low_of_or_eq w (r ||| e ||| b) (by rw [← hu]; ac_rfl))
  have k3 := OneHot.mem_flagBits e h3 (low_of_or_eq e (r ||| w ||| b) (by rw [← hu]; ac_rfl))
  have k4 := OneHot.mem_flagBits b h4 (low_of_or_eq b (r ||| w ||| e) (by rw [← hu]; ac_rfl))
  clear h1 h2 h3 h4 hu
  simp only [flagBits, List.mem_cons, List.not_mem_nil, or_false] at k1 k2 k3 k4
  rcases k1 with rfl | rfl | rfl | rfl <;> rcases k2 with rfl | rfl | rfl | rfl <;>
    rcases k3 with rfl | rfl | rfl | rfl <;> rcases k4 with rfl | rfl | rfl | rfl <;>
    first | (exfalso; revert hd; decide) | decide

/-- A claim over all admitted masks from a check of the list. -/
theorem Masks.forall_ok {P : Masks → Prop} (h : ∀ m ∈ Masks.admitted, P m) : ∀ m : Masks, m.Ok → P m :=
  fun m hm => h m hm.mem_admitted

/-! The bytes of a transfer under admitted masks. -/

namespace Machine

/-- The high nibble in bits 7:4, bits 3:0 clear (30_encoding.md R52). -/
theorem hiByte_eq_append : ∀ v : Byte, hiByte v = v.extractLsb' 4 4 ++ 0#4 := by decide +kernel

/-- The low nibble in bits 7:4, bits 3:0 clear (30_encoding.md R52). -/
theorem loByte_eq_append : ∀ v : Byte, loByte v = v.extractLsb' 0 4 ++ 0#4 := by decide +kernel

/-- A nibble with the flags of a mode, and with the enable bit added, is the encoded bus byte of its class. -/
theorem encodeBus_eq_flags : ∀ m ∈ Masks.admitted, ∀ d : Nibble, ∀ r ∈ [Mode.command, .data],
    (d ++ 0#4) ||| modeFlags m r = encodeBus m d r false ∧
    ((d ++ 0#4) ||| modeFlags m r) &&& ~~~m.en = encodeBus m d r false ∧
    ((d ++ 0#4) ||| modeFlags m r) ||| m.en = encodeBus m d r true := by decide +kernel

theorem Mode.mem_both (r : Mode) : r ∈ [Mode.command, .data] := by cases r <;> simp

/-- The setup byte of the high nibble as an encoded bus byte. -/
theorem hiSetup_eq_encodeBus {m : Masks} (h : m.Ok) (v : Byte) (r : Mode) :
    hiSetup m v r = encodeBus m (v.extractLsb' 4 4) r false := by
  rw [hiSetup, hiByte_eq_append]; exact (encodeBus_eq_flags m h.mem_admitted _ r (Mode.mem_both r)).1

/-- The setup byte of the low nibble as an encoded bus byte. -/
theorem loSetup_eq_encodeBus {m : Masks} (h : m.Ok) (v : Byte) (r : Mode) :
    loSetup m v r = encodeBus m (v.extractLsb' 0 4) r false := by
  rw [loSetup, loByte_eq_append]; exact (encodeBus_eq_flags m h.mem_admitted _ r (Mode.mem_both r)).1

/-- `Base` never has the enable bit set (30_encoding.md R54): the high nibble's byte. -/
theorem hiSetup_and_not_en {m : Masks} (h : m.Ok) (v : Byte) (r : Mode) :
    hiSetup m v r &&& ~~~m.en = hiSetup m v r := by
  rw [hiSetup, hiByte_eq_append]
  have := encodeBus_eq_flags m h.mem_admitted (v.extractLsb' 4 4) r (Mode.mem_both r)
  rw [this.2.1, this.1]

/-- `Base` never has the enable bit set (30_encoding.md R54): the low nibble's byte. -/
theorem loSetup_and_not_en {m : Masks} (h : m.Ok) (v : Byte) (r : Mode) :
    loSetup m v r &&& ~~~m.en = loSetup m v r := by
  rw [loSetup, loByte_eq_append]
  have := encodeBus_eq_flags m h.mem_admitted (v.extractLsb' 0 4) r (Mode.mem_both r)
  rw [this.2.1, this.1]

/-- The bus byte of each write phase as an encoded bus byte: its class, its nibble, and the mode (30_encoding.md R54, R55). -/
theorem busData_eq_encodeBus {m : Masks} (h : m.Ok) (v : Byte) (r : Mode) (p : Phase) :
    busData m v r p =
      encodeBus m (if p.nib = 0 then v.extractLsb' 4 4 else v.extractLsb' 0 4) r (decide (p.microStep = 2)) := by
  have lo := fun d => (encodeBus_eq_flags m h.mem_admitted d r (Mode.mem_both r)).2.1
  have hi := fun d => (encodeBus_eq_flags m h.mem_admitted d r (Mode.mem_both r)).2.2
  unfold busData baseByte
  by_cases hn : p.nib = 0 <;> by_cases hs : p.microStep = 2 <;>
    simp [hn, hs, hiSetup, loSetup, hiByte_eq_append, loByte_eq_append, lo, hi]

end Machine

/-- The default masks are admitted. -/
theorem Masks.default_ok : Masks.default.Ok := by decide

end Sys2Proof
end

