-- ==== Sys2Proof/Laws/PerInstr.lean ====
section
/-! SUPPORT. For each instruction: its encoded word is of its row of spec/opcode_table.json (30_encoding.md R55). -/

namespace Sys2Proof.Laws.TableRow

/-- A row of the opcode table: width in bits, `match`, `mask`. -/
structure Row where
  width : Nat
  bits  : Nat
  mask  : Nat
  deriving DecidableEq, Repr

/-- The rows, as spec/opcode_table.json has them. -/
def row : Instr → Row
  | .sendc _ => { width := 9, bits := 0x000, mask := 0x100 }
  | .sendd _ => { width := 9, bits := 0x100, mask := 0x100 }
  | .busbE0 _ _ => { width := 8, bits := 0x08, mask := 0x0E }
  | .busbE1 _ _ => { width := 8, bits := 0x0C, mask := 0x0E }

/-- A word as a width and a number. -/
def widthAndValue : Word → Nat × Nat
  | .req9 w => (9, w.toNat)
  | .bus8 b => (8, b.toNat)

/-- Under the default masks the encoded word has its row's width and fixed bits, and the table's bits decode back. -/
abbrev Statement (i : Instr) : Prop :=
  let p := widthAndValue (encode Masks.default i)
  i.wf = true ∧ p.1 = (row i).width ∧ p.2 &&& (row i).mask = (row i).bits ∧ decodeTableWord p.1 p.2 = some i

theorem sendc : ∀ value : Byte, Statement (.sendc value) := by decide +kernel

theorem sendd : ∀ value : Byte, Statement (.sendd value) := by decide +kernel

theorem busbE0 : ∀ (d : Nibble) (r : Mode), Statement (.busbE0 d r) := by
  intro d r; revert d; cases r <;> decide +kernel

theorem busbE1 : ∀ (d : Nibble) (r : Mode), Statement (.busbE1 d r) := by
  intro d r; revert d; cases r <;> decide +kernel

end Sys2Proof.Laws.TableRow
end

