-- ==== Sys2Proof/Laws/State.lean ====
section
/-! SUPPORT. One lemma for each field under each named update of the state, so that no later proof unfolds a record update. -/

namespace Sys2Proof.Machine

/-- Two states with equal fields are equal. -/
theorem State.eq_of_fields {s t : State} (h1 : s.cfg = t.cfg) (h2 : s.val = t.val) (h3 : s.mode = t.mode) (h4 : s.ph = t.ph)
    (h5 : s.cnt = t.cnt) (h6 : s.done = t.done) (h7 : s.xp = t.xp) (h8 : s.trace = t.trace) (h9 : s.rx = t.rx)
    (h10 : s.inputs = t.inputs) (h11 : s.draws = t.draws) : s = t := by
  cases s; cases t; simp_all

variable (s : State)

/-! The reference receiver (40_send_byte.md R79). -/

/-- The value it compares next is the one it has just seen. -/
@[simp] theorem receive_line (m : Masks) (x : Byte) (r : Receiver) : (receive m x r).line = x := by
  unfold receive
  split
  · split <;> rfl
  · rfl

/-- It takes nothing back. -/
theorem receive_delivered (m : Masks) (x : Byte) (r : Receiver) : r.delivered <+: (receive m x r).delivered := by
  unfold receive
  split
  · split <;> simp
  · simp

@[simp] theorem receiveAll_nil (m : Masks) (r : Receiver) : receiveAll m [] r = r := rfl

@[simp] theorem receiveAll_cons (m : Masks) (x : Byte) (xs : List Byte) (r : Receiver) :
    receiveAll m (x :: xs) r = receiveAll m xs (receive m x r) := rfl

/-- It sees joined sequences one after the other. -/
theorem receiveAll_append (m : Masks) (xs ys : List Byte) (r : Receiver) :
    receiveAll m (xs ++ ys) r = receiveAll m ys (receiveAll m xs r) := by
  induction xs generalizing r with
  | nil => rfl
  | cons x xs ih => exact ih (receive m x r)

/-! `State.accept` -/

@[simp] theorem State.accept_cfg (m : Mode) (v : Byte) : (s.accept m v).cfg = s.cfg := rfl
@[simp] theorem State.accept_val (m : Mode) (v : Byte) : (s.accept m v).val = v := rfl
@[simp] theorem State.accept_mode (m : Mode) (v : Byte) : (s.accept m v).mode = m := rfl
@[simp] theorem State.accept_ph (m : Mode) (v : Byte) : (s.accept m v).ph = .hSetup := rfl
@[simp] theorem State.accept_cnt (m : Mode) (v : Byte) : (s.accept m v).cnt = s.cnt := rfl
@[simp] theorem State.accept_done (m : Mode) (v : Byte) : (s.accept m v).done = false := rfl
@[simp] theorem State.accept_xp (m : Mode) (v : Byte) : (s.accept m v).xp = s.xp := rfl
@[simp] theorem State.accept_trace (m : Mode) (v : Byte) : (s.accept m v).trace = s.trace := rfl
@[simp] theorem State.accept_rx (m : Mode) (v : Byte) : (s.accept m v).rx = s.rx := rfl
@[simp] theorem State.accept_inputs (m : Mode) (v : Byte) : (s.accept m v).inputs = s.inputs := rfl
@[simp] theorem State.accept_draws (m : Mode) (v : Byte) : (s.accept m v).draws = s.draws := rfl

/-! `State.record` -/

@[simp] theorem State.record_cfg (v : Byte) (r : BusResult) : (s.record v r).cfg = s.cfg := rfl
@[simp] theorem State.record_val (v : Byte) (r : BusResult) : (s.record v r).val = s.val := rfl
@[simp] theorem State.record_mode (v : Byte) (r : BusResult) : (s.record v r).mode = s.mode := rfl
@[simp] theorem State.record_ph (v : Byte) (r : BusResult) : (s.record v r).ph = s.ph := rfl
@[simp] theorem State.record_cnt (v : Byte) (r : BusResult) : (s.record v r).cnt = s.cnt := rfl
@[simp] theorem State.record_done (v : Byte) (r : BusResult) : (s.record v r).done = s.done := rfl
@[simp] theorem State.record_xp (v : Byte) (r : BusResult) : (s.record v r).xp = s.xp := rfl
@[simp] theorem State.record_trace (v : Byte) (r : BusResult) : (s.record v r).trace = s.trace ++ [{ addr := busAddr, data := v, result := r }] := rfl
@[simp] theorem State.record_rx (v : Byte) (r : BusResult) : (s.record v r).rx = s.rx := rfl
@[simp] theorem State.record_inputs (v : Byte) (r : BusResult) : (s.record v r).inputs = s.inputs := rfl
@[simp] theorem State.record_draws (v : Byte) (r : BusResult) : (s.record v r).draws = s.draws := rfl

/-! `State.busOk` -/

@[simp] theorem State.busOk_cfg (v : Byte) : (s.busOk v).cfg = s.cfg := rfl
@[simp] theorem State.busOk_val (v : Byte) : (s.busOk v).val = s.val := rfl
@[simp] theorem State.busOk_mode (v : Byte) : (s.busOk v).mode = s.mode := rfl
@[simp] theorem State.busOk_ph (v : Byte) : (s.busOk v).ph = s.ph := rfl
@[simp] theorem State.busOk_cnt (v : Byte) : (s.busOk v).cnt = s.cnt := rfl
@[simp] theorem State.busOk_done (v : Byte) : (s.busOk v).done = s.done := rfl
@[simp] theorem State.busOk_xp (v : Byte) : (s.busOk v).xp = v := rfl
@[simp] theorem State.busOk_trace (v : Byte) : (s.busOk v).trace = s.trace ++ [okTxn v] := rfl
@[simp] theorem State.busOk_rx (v : Byte) : (s.busOk v).rx = receive s.cfg.masks v s.rx := rfl
@[simp] theorem State.busOk_inputs (v : Byte) : (s.busOk v).inputs = s.inputs := rfl
@[simp] theorem State.busOk_draws (v : Byte) : (s.busOk v).draws = s.draws := rfl

/-! `State.enterWait` -/

@[simp] theorem State.enterWait_cfg : s.enterWait.cfg = s.cfg := rfl
@[simp] theorem State.enterWait_val : s.enterWait.val = s.val := rfl
@[simp] theorem State.enterWait_mode : s.enterWait.mode = s.mode := rfl
@[simp] theorem State.enterWait_ph : s.enterWait.ph = s.ph.next := rfl
@[simp] theorem State.enterWait_cnt : s.enterWait.cnt = s.cfg.waitTicks := rfl
@[simp] theorem State.enterWait_done : s.enterWait.done = false := rfl
@[simp] theorem State.enterWait_xp : s.enterWait.xp = s.xp := rfl
@[simp] theorem State.enterWait_trace : s.enterWait.trace = s.trace := rfl
@[simp] theorem State.enterWait_rx : s.enterWait.rx = s.rx := rfl
@[simp] theorem State.enterWait_inputs : s.enterWait.inputs = s.inputs := rfl
@[simp] theorem State.enterWait_draws : s.enterWait.draws = s.draws := rfl

/-! `State.drawXp` -/

@[simp] theorem State.drawXp_cfg : s.drawXp.cfg = s.cfg := rfl
@[simp] theorem State.drawXp_val : s.drawXp.val = s.val := rfl
@[simp] theorem State.drawXp_mode : s.drawXp.mode = s.mode := rfl
@[simp] theorem State.drawXp_ph : s.drawXp.ph = s.ph := rfl
@[simp] theorem State.drawXp_cnt : s.drawXp.cnt = s.cnt := rfl
@[simp] theorem State.drawXp_done : s.drawXp.done = s.done := rfl
@[simp] theorem State.drawXp_xp : s.drawXp.xp = Config.freeXp s.draws := rfl
@[simp] theorem State.drawXp_trace : s.drawXp.trace = s.trace := rfl
@[simp] theorem State.drawXp_rx : s.drawXp.rx = s.rx := rfl
@[simp] theorem State.drawXp_inputs : s.drawXp.inputs = s.inputs := rfl
@[simp] theorem State.drawXp_draws : s.drawXp.draws = s.draws + 1 := rfl

/-! `State.takeTransmissionFailure` -/

@[simp] theorem State.takeTransmissionFailure_cfg (v : Byte) : (s.takeTransmissionFailure v).cfg = s.cfg := rfl
@[simp] theorem State.takeTransmissionFailure_val (v : Byte) : (s.takeTransmissionFailure v).val = s.val := rfl
@[simp] theorem State.takeTransmissionFailure_mode (v : Byte) : (s.takeTransmissionFailure v).mode = s.mode := rfl
@[simp] theorem State.takeTransmissionFailure_ph (v : Byte) : (s.takeTransmissionFailure v).ph = .fault := rfl
@[simp] theorem State.takeTransmissionFailure_cnt (v : Byte) : (s.takeTransmissionFailure v).cnt = s.cnt := rfl
@[simp] theorem State.takeTransmissionFailure_done (v : Byte) : (s.takeTransmissionFailure v).done = false := rfl
@[simp] theorem State.takeTransmissionFailure_xp (v : Byte) : (s.takeTransmissionFailure v).xp = Config.freeXp s.draws := rfl
@[simp] theorem State.takeTransmissionFailure_trace (v : Byte) : (s.takeTransmissionFailure v).trace = s.trace ++ [errTxn v] := rfl
@[simp] theorem State.takeTransmissionFailure_rx (v : Byte) : (s.takeTransmissionFailure v).rx = s.rx := rfl
@[simp] theorem State.takeTransmissionFailure_inputs (v : Byte) : (s.takeTransmissionFailure v).inputs = s.inputs := rfl
@[simp] theorem State.takeTransmissionFailure_draws (v : Byte) : (s.takeTransmissionFailure v).draws = s.draws + 1 := rfl

/-! `State.resetTick` -/

@[simp] theorem State.resetTick_cfg : s.resetTick.cfg = s.cfg := rfl
@[simp] theorem State.resetTick_val : s.resetTick.val = Config.freeVal s.draws := rfl
@[simp] theorem State.resetTick_mode : s.resetTick.mode = Mode.ofBool (Config.freeModeIsData s.draws) := rfl
@[simp] theorem State.resetTick_ph : s.resetTick.ph = .idle := rfl
@[simp] theorem State.resetTick_cnt : s.resetTick.cnt = Config.freeCnt s.draws % 2 ^ s.cfg.cntW := rfl
@[simp] theorem State.resetTick_done : s.resetTick.done = false := rfl
@[simp] theorem State.resetTick_xp : s.resetTick.xp = if s.ph.isWrite then Config.freeXp s.draws else s.xp := rfl
@[simp] theorem State.resetTick_trace : s.resetTick.trace = s.trace := rfl
@[simp] theorem State.resetTick_rx : s.resetTick.rx = s.rx := rfl
@[simp] theorem State.resetTick_inputs : s.resetTick.inputs = s.inputs := rfl
@[simp] theorem State.resetTick_draws : s.resetTick.draws = s.draws + 1 := rfl

/-! `State.clearDone` -/

@[simp] theorem State.clearDone_cfg : s.clearDone.cfg = s.cfg := rfl
@[simp] theorem State.clearDone_val : s.clearDone.val = s.val := rfl
@[simp] theorem State.clearDone_mode : s.clearDone.mode = s.mode := rfl
@[simp] theorem State.clearDone_ph : s.clearDone.ph = s.ph := rfl
@[simp] theorem State.clearDone_cnt : s.clearDone.cnt = s.cnt := rfl
@[simp] theorem State.clearDone_done : s.clearDone.done = false := rfl
@[simp] theorem State.clearDone_xp : s.clearDone.xp = s.xp := rfl
@[simp] theorem State.clearDone_trace : s.clearDone.trace = s.trace := rfl
@[simp] theorem State.clearDone_rx : s.clearDone.rx = s.rx := rfl
@[simp] theorem State.clearDone_inputs : s.clearDone.inputs = s.inputs := rfl
@[simp] theorem State.clearDone_draws : s.clearDone.draws = s.draws := rfl

/-! `State.present` -/

@[simp] theorem State.present_cfg (m : Mode) (v : Byte) : (s.present m v).cfg = s.cfg := rfl
@[simp] theorem State.present_val (m : Mode) (v : Byte) : (s.present m v).val = s.val := rfl
@[simp] theorem State.present_mode (m : Mode) (v : Byte) : (s.present m v).mode = s.mode := rfl
@[simp] theorem State.present_ph (m : Mode) (v : Byte) : (s.present m v).ph = s.ph := rfl
@[simp] theorem State.present_cnt (m : Mode) (v : Byte) : (s.present m v).cnt = s.cnt := rfl
@[simp] theorem State.present_done (m : Mode) (v : Byte) : (s.present m v).done = s.done := rfl
@[simp] theorem State.present_xp (m : Mode) (v : Byte) : (s.present m v).xp = s.xp := rfl
@[simp] theorem State.present_trace (m : Mode) (v : Byte) : (s.present m v).trace = s.trace := rfl
@[simp] theorem State.present_rx (m : Mode) (v : Byte) : (s.present m v).rx = s.rx := rfl
@[simp] theorem State.present_inputs (m : Mode) (v : Byte) : (s.present m v).inputs = { s.nextIn with reqValid := true, reqMode := m, reqValue := v } :: s.inputs.tail := rfl
@[simp] theorem State.present_draws (m : Mode) (v : Byte) : (s.present m v).draws = s.draws := rfl

/-! `State.withInputs` -/

@[simp] theorem State.withInputs_cfg (is : List TickIn) : (s.withInputs is).cfg = s.cfg := rfl
@[simp] theorem State.withInputs_val (is : List TickIn) : (s.withInputs is).val = s.val := rfl
@[simp] theorem State.withInputs_mode (is : List TickIn) : (s.withInputs is).mode = s.mode := rfl
@[simp] theorem State.withInputs_ph (is : List TickIn) : (s.withInputs is).ph = s.ph := rfl
@[simp] theorem State.withInputs_cnt (is : List TickIn) : (s.withInputs is).cnt = s.cnt := rfl
@[simp] theorem State.withInputs_done (is : List TickIn) : (s.withInputs is).done = s.done := rfl
@[simp] theorem State.withInputs_xp (is : List TickIn) : (s.withInputs is).xp = s.xp := rfl
@[simp] theorem State.withInputs_trace (is : List TickIn) : (s.withInputs is).trace = s.trace := rfl
@[simp] theorem State.withInputs_rx (is : List TickIn) : (s.withInputs is).rx = s.rx := rfl
@[simp] theorem State.withInputs_inputs (is : List TickIn) : (s.withInputs is).inputs = is := rfl
@[simp] theorem State.withInputs_draws (is : List TickIn) : (s.withInputs is).draws = s.draws := rfl
@[simp] theorem State.withInputs_withInputs (is js : List TickIn) : (s.withInputs is).withInputs js = s.withInputs js := rfl
@[simp] theorem State.withInputs_self : s.withInputs s.inputs = s := rfl

end Sys2Proof.Machine
end

