-- ==== Sys2Proof/Laws/Sequencer.lean ====
section
/-! SUPPORT. What one tick can do, case by case (41_pulse_sequencer.md R90), and what no tick changes. -/

namespace Sys2Proof.Machine

/-! The phases by kind. -/

@[simp] theorem Phase.next_ne_fault (p : Phase) (h : p ≠ .fault) : p.next ≠ .fault := by
  cases p <;> simp_all [Phase.next]

/-- Every phase is idle, a write phase, a wait phase or the fault state. -/
theorem Phase.kinds (p : Phase) : p = .idle ∨ p.isWrite = true ∨ p.isWait = true ∨ p = .fault := by
  cases p <;> decide

theorem Phase.isWrite_not_isWait {p : Phase} (h : p.isWrite = true) : p.isWait = false := by
  cases p <;> first | rfl | (exact absurd h (by decide))

theorem Phase.isWait_not_isWrite {p : Phase} (h : p.isWait = true) : p.isWrite = false := by
  cases p <;> first | rfl | (exact absurd h (by decide))

theorem Phase.isWrite_next {p : Phase} (h : p.isWrite = true) : p.next.isWait = true := by
  cases p <;> first | rfl | (exact absurd h (by decide))

theorem Phase.isWrite_next_num {p : Phase} (h : p.isWrite = true) : p.next.num = p.num + 1 := by
  cases p <;> first | rfl | (exact absurd h (by decide))

theorem Phase.isWrite_inTransfer {p : Phase} (h : p.isWrite = true) : p.inTransfer = true := by
  cases p <;> first | rfl | (exact absurd h (by decide))

theorem Phase.isWait_inTransfer {p : Phase} (h : p.isWait = true) : p.inTransfer = true := by
  cases p <;> first | rfl | (exact absurd h (by decide))

theorem Phase.isWrite_iff_num (p : Phase) : p.isWrite = true ↔ p.num ∈ [1, 3, 5, 7, 9, 11] := by
  cases p <;> decide

theorem Phase.isWait_iff_num (p : Phase) : p.isWait = true ↔ p.num ∈ [2, 4, 6, 8, 10, 12] := by
  cases p <;> decide

theorem Phase.inTransfer_iff (p : Phase) : p.inTransfer = true ↔ p.isWrite = true ∨ p.isWait = true := by
  cases p <;> decide

theorem Phase.num_eq_zero (p : Phase) : p.num = 0 ↔ p = .idle := by cases p <;> decide

theorem Phase.num_eq_twelve (p : Phase) : p.num = 12 ↔ p = .lWait3 := by cases p <;> decide

theorem Phase.num_eq_thirteen (p : Phase) : p.num = 13 ↔ p = .fault := by cases p <;> decide

@[simp] theorem Phase.idle_isWrite : Phase.idle.isWrite = false := rfl
@[simp] theorem Phase.idle_isWait : Phase.idle.isWait = false := rfl
@[simp] theorem Phase.idle_inTransfer : Phase.idle.inTransfer = false := rfl
@[simp] theorem Phase.fault_isWrite : Phase.fault.isWrite = false := rfl
@[simp] theorem Phase.fault_isWait : Phase.fault.isWait = false := rfl
@[simp] theorem Phase.fault_inTransfer : Phase.fault.inTransfer = false := rfl
@[simp] theorem Phase.hSetup_isWrite : Phase.hSetup.isWrite = true := rfl
@[simp] theorem Phase.hSetup_inTransfer : Phase.hSetup.inTransfer = true := rfl

theorem State.ready_iff (s : State) : s.ready = true ↔ s.ph = .idle := by
  cases h : s.ph <;> simp [State.ready, h, Phase.num]

theorem State.faulted_iff (s : State) : s.faulted = true ↔ s.ph = .fault := by
  cases h : s.ph <;> simp [State.faulted, h, Phase.num]

/-! The cases of one tick. -/

theorem tick_of_rst {i : TickIn} {s : State} (h : i.rst = true) : tick i s = s.resetTick := by
  simp [tick, h]

theorem tick_of_fault {i : TickIn} {s : State} (hr : i.rst = false) (h : s.ph = .fault) : tick i s = s.clearDone := by
  simp [tick, hr, h, tickFault]

theorem tick_of_idle {i : TickIn} {s : State} (hr : i.rst = false) (h : s.ph = .idle) : tick i s = tickIdle i s := by
  simp [tick, hr, h]

theorem tick_of_write {i : TickIn} {s : State} (hr : i.rst = false) (h : s.ph.isWrite = true) :
    tick i s = tickWrite i s := by
  cases hp : s.ph <;> first | (rw [hp] at h; exact absurd h (by decide)) | simp [tick, hr, hp]

theorem tick_of_wait {i : TickIn} {s : State} (hr : i.rst = false) (h : s.ph.isWait = true) :
    tick i s = tickWait s := by
  cases hp : s.ph <;> first | (rw [hp] at h; exact absurd h (by decide)) | simp [tick, hr, hp]

/-- Everything one tick can do (41_pulse_sequencer.md R90 to R98). -/
theorem tick_cases (i : TickIn) (s : State) :
    (i.rst = true ∧ tick i s = s.resetTick) ∨
    (i.rst = false ∧ s.ph = .fault ∧ tick i s = s.clearDone) ∨
    (i.rst = false ∧ s.ph = .idle ∧ i.reqValid = true ∧ tick i s = s.accept i.reqMode i.reqValue) ∨
    (i.rst = false ∧ s.ph = .idle ∧ i.reqValid = false ∧ tick i s = s.clearDone) ∨
    (i.rst = false ∧ s.ph.isWrite = true ∧ i.busAck = true ∧ i.busErr = false ∧
      tick i s = (s.busOk (busData s.cfg.masks s.val s.mode s.ph)).enterWait) ∨
    (i.rst = false ∧ s.ph.isWrite = true ∧ i.busAck = true ∧ i.busErr = true ∧
      tick i s = s.takeTransmissionFailure (busData s.cfg.masks s.val s.mode s.ph)) ∨
    (i.rst = false ∧ s.ph.isWrite = true ∧ i.busAck = false ∧ tick i s = s.clearDone) ∨
    (i.rst = false ∧ s.ph.isWait = true ∧ s.cnt ≠ 0 ∧ tick i s = { s with cnt := s.cnt - 1, done := false }) ∨
    (i.rst = false ∧ s.ph.isWait = true ∧ s.cnt = 0 ∧ tick i s = { s with ph := s.ph.next, done := s.ph == .lWait3 }) := by
  cases hr : i.rst
  · rcases s.ph.kinds with h | h | h | h
    · rw [tick_of_idle hr h]; cases hv : i.reqValid <;> simp [tickIdle, hv, h]
    · rw [tick_of_write hr h]
      have hw := Phase.isWrite_not_isWait h
      cases ha : i.busAck <;> cases he : i.busErr <;> simp [tickWrite, ha, he, h]
    · rw [tick_of_wait hr h]
      have hw := Phase.isWait_not_isWrite h
      by_cases hc : s.cnt = 0 <;> simp [tickWait, hc, h]
    · rw [tick_of_fault hr h]; simp [h]
  · simp [tick_of_rst hr]

@[simp] theorem tick_inputs (i : TickIn) (s : State) : (tick i s).inputs = s.inputs := by
  rcases tick_cases i s with ⟨-, h⟩ | ⟨-, -, h⟩ | ⟨-, -, -, h⟩ | ⟨-, -, -, h⟩ | ⟨-, -, -, -, h⟩ | ⟨-, -, -, -, h⟩ |
    ⟨-, -, -, h⟩ | ⟨-, -, -, h⟩ | ⟨-, -, -, h⟩ <;> simp [h]

@[simp] theorem tick_cfg (i : TickIn) (s : State) : (tick i s).cfg = s.cfg := by
  rcases tick_cases i s with ⟨-, h⟩ | ⟨-, -, h⟩ | ⟨-, -, -, h⟩ | ⟨-, -, -, h⟩ | ⟨-, -, -, -, h⟩ | ⟨-, -, -, -, h⟩ |
    ⟨-, -, -, h⟩ | ⟨-, -, -, h⟩ | ⟨-, -, -, h⟩ <;> simp [h]

/-- Nothing in a tick reads the list of coming inputs. -/
@[simp] theorem tick_withInputs (i : TickIn) (s : State) (is : List TickIn) :
    tick i (s.withInputs is) = (tick i s).withInputs is := by
  cases hr : i.rst
  · rcases s.ph.kinds with h | h | h | h
    · rw [tick_of_idle hr h, tick_of_idle hr (by simpa using h)]
      cases hv : i.reqValid <;> simp only [tickIdle, hv] <;> rfl
    · rw [tick_of_write hr h, tick_of_write hr (by simpa using h)]
      cases ha : i.busAck <;> cases he : i.busErr <;> simp only [tickWrite, ha, he] <;> rfl
    · rw [tick_of_wait hr h, tick_of_wait hr (by simpa using h)]
      by_cases hc : s.cnt = 0 <;> simp [tickWait, hc, State.withInputs]
    · rw [tick_of_fault hr h, tick_of_fault hr (by simpa using h)]; rfl
  · rw [tick_of_rst hr, tick_of_rst hr]; rfl

/-- The request port is read by an idle tick only (41_pulse_sequencer.md R101). -/
theorem tick_ignores_request {i : TickIn} {s : State} (h : s.ph ≠ .idle ∨ i.rst = true) (q : Bool) (m : Mode) (v : Byte) :
    tick { i with reqValid := q, reqMode := m, reqValue := v } s = tick i s := by
  cases hr : i.rst
  · have h' : s.ph ≠ .idle := by simpa [hr] using h
    rcases s.ph.kinds with k | k | k | k
    · exact absurd k h'
    · rw [tick_of_write hr k, tick_of_write rfl k]; rfl
    · rw [tick_of_wait hr k, tick_of_wait rfl k]
    · rw [tick_of_fault hr k, tick_of_fault rfl k]
  · rw [tick_of_rst hr, tick_of_rst rfl]

theorem ticks_append (is js : List TickIn) (s : State) : ticks (is ++ js) s = ticks js (ticks is s) := by
  induction is generalizing s with
  | nil => rfl
  | cons i is ih => exact ih (tick i s)

@[simp] theorem ticks_cfg (is : List TickIn) (s : State) : (ticks is s).cfg = s.cfg := by
  induction is generalizing s with
  | nil => rfl
  | cons i is ih => simp [ticks, ih]

@[simp] theorem State.advance_inputs (s : State) : s.advance.inputs = s.inputs.tail := rfl

/-- One tick from given coming inputs. -/
theorem State.advance_withInputs (s : State) (is : List TickIn) :
    (s.withInputs is).advance = (tick (is.headD TickIn.quiet) s).withInputs is.tail := by
  simp [State.advance, State.nextIn]

@[simp] theorem State.advance_cfg (s : State) : s.advance.cfg = s.cfg := by simp [State.advance]

/-! The launch premises (20_memory.md R45, 60_exceptions.md R141, 70_reset_and_hazards.md R169). -/

/-- What a tick's violation says of it. -/
theorem TickIn.violation_eq_none {i : TickIn} :
    i.violation = none ↔ i.otherWrite = none ∧ (i.rst = false → i.busReady = true) ∧ i.otherRequest = none := by
  cases ho : i.otherWrite <;> cases hr : i.rst <;> cases hb : i.busReady <;> cases hq : i.otherRequest <;>
    simp [TickIn.violation, ho, hr, hb, hq]

/-- Where it answers a next state, it is the one given. -/
theorem State.underPremises_next {s t u : State} (h : s.underPremises t = .next u) : u = t := by
  unfold State.underPremises at h
  split at h
  · cases h
  · injection h with h; exact h.symm

/-- It answers where no tick used up violates a premise. -/
theorem State.underPremises_of_prefix {s t : State} {pre : List TickIn} (h : s.inputs = pre ++ t.inputs)
    (hp : ∀ i ∈ pre, i.violation = none) : s.underPremises t = .next t := by
  have hu : s.usedInputs t = pre := by simp [State.usedInputs, h]
  rw [State.underPremises, hu, List.findSome?_eq_none_iff.mpr hp]

/-- It answers where no coming tick violates a premise. -/
theorem State.underPremises_of_all {s : State} (t : State) (h : ∀ i ∈ s.inputs, i.violation = none) :
    s.underPremises t = .next t := by
  have : (s.usedInputs t).findSome? TickIn.violation = none :=
    List.findSome?_eq_none_iff.mpr (fun i hi => h i (List.mem_of_mem_take hi))
  rw [State.underPremises, this]

/-- One tick that violates no premise. -/
theorem State.underPremises_advance {s : State} (h : s.nextIn.violation = none) :
    s.underPremises s.advance = .next s.advance := by
  cases hs : s.inputs with
  | nil => exact State.underPremises_of_all _ (by simp [hs])
  | cons i is =>
    refine State.underPremises_of_prefix (pre := [i]) (by simp [hs]) ?_
    simpa [State.nextIn, hs] using h

/-- It refuses where the next tick violates a premise and is used up. -/
theorem State.underPremises_refused {s t : State} {r : Refusal} (h : s.nextIn.violation = some r)
    (ht : t.inputs.length ≤ s.inputs.tail.length) : s.underPremises t = .refused r := by
  cases hs : s.inputs with
  | nil => simp [State.nextIn, hs, TickIn.quiet, TickIn.violation] at h
  | cons i is =>
    have hi : i.violation = some r := by simpa [State.nextIn, hs] using h
    rw [hs, List.tail_cons] at ht
    obtain ⟨n, hn⟩ : ∃ n, (i :: is).length - t.inputs.length = n + 1 := ⟨is.length - t.inputs.length, by simp; omega⟩
    rw [State.underPremises, State.usedInputs, hs, hn, List.take_succ_cons, List.findSome?_cons, hi]

end Sys2Proof.Machine
end

