-- ==== Sys2Proof/Laws/Safety.lean ====
section
/-! SUPPORT. What the launch premises give at each tick, and the last `ok` write of a grown trace. -/

namespace Sys2Proof.Machine

/-- Under the launch premises no tick violates one. -/
theorem violation_of_premises {is : List TickIn} (hx : BusExclusive is) (hr : BusReady is) (hq : SingleDriver is) :
    ∀ i ∈ is, i.violation = none :=
  fun i hi => TickIn.violation_eq_none.mpr ⟨hx i hi, hr i hi, hq i hi⟩

@[simp] theorem lastOk_nil : lastOk [] = none := rfl

@[simp] theorem lastOk_append_okTxn (tr : List Txn) (v : Byte) : lastOk (tr ++ [okTxn v]) = some v := by
  simp [lastOk, okTxn, List.filter_append]

@[simp] theorem lastOk_append_errTxn (tr : List Txn) (v : Byte) : lastOk (tr ++ [errTxn v]) = lastOk tr := by
  simp [lastOk, errTxn, List.filter_append]

end Sys2Proof.Machine
end

