-- ==== Sys2Proof/Laws/Transfer.lean ====
section
/-! SUPPORT. What a transfer does under the environment's inputs: one answered write with its wait at a time, and the acceptance that
starts it (40_send_byte.md R72, R73). -/

namespace Sys2Proof.Machine

/-! The environment's functions, read backwards. -/

/-- One more successful write is an `ok` answer, a wait, and the rest. -/
theorem Env.okWrites_succ {w k : Nat} {is rest : List TickIn} (h : Env.okWrites w (k + 1) is = some rest) :
    ∃ js ks, Env.answer is = some (.ok, js) ∧ Env.pass (w + 1) js = some ks ∧ Env.okWrites w k ks = some rest := by
  unfold Env.okWrites at h
  split at h
  · rename_i js hj
    split at h
    · rename_i ks hk; exact ⟨js, ks, hj, hk, h⟩
    · cases h
  · cases h

/-- A failure after `k + 1` successful writes is one after `k`, later. -/
theorem Env.failsAfter_succ {w k : Nat} {is rest : List TickIn} (h : Env.failsAfter w (k + 1) is = some rest) :
    ∃ js ks, Env.answer is = some (.ok, js) ∧ Env.pass (w + 1) js = some ks ∧ Env.failsAfter w k ks = some rest := by
  unfold Env.failsAfter at h
  split at h
  · rename_i is' hi
    obtain ⟨js, ks, h1, h2, h3⟩ := Env.okWrites_succ hi
    exact ⟨js, ks, h1, h2, by simpa [Env.failsAfter, h3] using h⟩
  · cases h

/-- A failure at the first write is an `err` answer. -/
theorem Env.failsAfter_zero {w : Nat} {is rest : List TickIn} (h : Env.failsAfter w 0 is = some rest) :
    Env.answer is = some (.err, rest) := by
  simp only [Env.failsAfter, Env.okWrites] at h
  split at h
  · rename_i ks hk; rw [hk]; simpa using h
  · cases h

/-- An undisturbed tick has no reset and violates no launch premise. -/
theorem TickIn.of_not_disturbed {i : TickIn} (h : i.disturbed = false) : i.rst = false ∧ i.violation = none := by
  simpa [TickIn.disturbed] using h

/-! Each stretch is a front part of the ticks, undisturbed. -/

theorem Env.answer_prefix {is rest : List TickIn} {r : BusResult} (h : Env.answer is = some (r, rest)) :
    ∃ pre, is = pre ++ rest ∧ ∀ i ∈ pre, i.disturbed = false := by
  induction is with
  | nil => cases h
  | cons i is ih =>
    unfold Env.answer at h
    split at h; · cases h
    rename_i hd
    split at h
    · injection h with h
      injection h with _ h
      exact ⟨[i], by simp [h], by simpa using hd⟩
    · obtain ⟨pre, rfl, hp⟩ := ih h
      exact ⟨i :: pre, rfl, List.forall_mem_cons.mpr ⟨by simpa using hd, hp⟩⟩

theorem Env.pass_prefix {n : Nat} {is rest : List TickIn} (h : Env.pass n is = some rest) :
    ∃ pre, is = pre ++ rest ∧ ∀ i ∈ pre, i.disturbed = false := by
  induction n generalizing is with
  | zero => exact ⟨[], by simpa [Env.pass] using h, by simp⟩
  | succ n ih =>
    cases is with
    | nil => cases h
    | cons i is =>
      unfold Env.pass at h
      split at h; · cases h
      rename_i hd
      obtain ⟨pre, rfl, hp⟩ := ih h
      exact ⟨i :: pre, rfl, List.forall_mem_cons.mpr ⟨by simpa using hd, hp⟩⟩

theorem Env.okWrites_prefix {w k : Nat} {is rest : List TickIn} (h : Env.okWrites w k is = some rest) :
    ∃ pre, is = pre ++ rest ∧ ∀ i ∈ pre, i.disturbed = false := by
  induction k generalizing is with
  | zero => exact ⟨[], by simpa [Env.okWrites] using h, by simp⟩
  | succ k ih =>
    obtain ⟨js, ks, h1, h2, h3⟩ := Env.okWrites_succ h
    obtain ⟨p, rfl, hp⟩ := Env.answer_prefix h1
    obtain ⟨q, rfl, hq⟩ := Env.pass_prefix h2
    obtain ⟨r, rfl, hr⟩ := ih h3
    exact ⟨p ++ q ++ r, by simp, by simpa [or_imp, forall_and] using ⟨hp, hq, hr⟩⟩

theorem Env.failsAfter_prefix {w k : Nat} {is rest : List TickIn} (h : Env.failsAfter w k is = some rest) :
    ∃ pre, is = pre ++ rest ∧ ∀ i ∈ pre, i.disturbed = false := by
  induction k generalizing is with
  | zero => exact Env.answer_prefix (Env.failsAfter_zero h)
  | succ k ih =>
    obtain ⟨js, ks, h1, h2, h3⟩ := Env.failsAfter_succ h
    obtain ⟨p, rfl, hp⟩ := Env.answer_prefix h1
    obtain ⟨q, rfl, hq⟩ := Env.pass_prefix h2
    obtain ⟨r, rfl, hr⟩ := ih h3
    exact ⟨p ++ q ++ r, by simp, by simpa [or_imp, forall_and] using ⟨hp, hq, hr⟩⟩

/-- A transfer uses up its inputs from the front. -/
theorem runTransfer_inputs (is : List TickIn) (s : State) (h : s.inputs = is) : (runTransfer is s).inputs <:+ is := by
  induction is generalizing s with
  | nil => simp [runTransfer, h]
  | cons i is ih =>
    unfold runTransfer
    split
    · exact (ih _ rfl).trans (List.suffix_cons _ _)
    · simp [h]

/-! The operations of the transfer. -/

@[simp] theorem State.nextIn_present (s : State) (md : Mode) (v : Byte) :
    (s.present md v).nextIn = { s.nextIn with reqValid := true, reqMode := md, reqValue := v } := rfl

theorem State.accepts_iff (s : State) : s.accepts = true ↔ s.ph = .idle ∧ s.nextIn.rst = false := by
  simp [State.accepts, State.ready_iff]

/-- An idle machine accepts the request presented to it. -/
theorem State.advance_present_of_accepts {s : State} (h : s.accepts = true) (md : Mode) (v : Byte) :
    (s.present md v).advance = (s.accept md v).withInputs s.inputs.tail := by
  obtain ⟨hp, hr⟩ := s.accepts_iff.mp h
  rw [State.present, State.advance_withInputs, List.headD_cons, List.tail_cons, tick_of_idle (by simpa using hr) hp]
  rfl

/-- A request to a machine that does not accept it leaves the tick as it is. -/
theorem State.advance_present_of_not_accepts {s : State} (h : s.accepts = false) (md : Mode) (v : Byte) :
    (s.present md v).advance = s.advance := by
  have h' : s.ph ≠ .idle ∨ s.nextIn.rst = true := by
    by_contra hn
    push Not at hn
    have := s.accepts_iff.mpr ⟨hn.1, by simpa using hn.2⟩
    simp [h] at this
  rw [State.present, State.advance_withInputs, List.headD_cons, List.tail_cons, tick_ignores_request h']
  rfl

/-- `sendRequest`, whether or not the request is accepted. -/
theorem State.sendRequest_cases (s : State) (md : Mode) (v : Byte) :
    (s.accepts = true ∧
      s.sendRequest md v = runTransfer s.inputs.tail ((s.accept md v).withInputs s.inputs.tail)) ∨
    (s.accepts = false ∧ s.sendRequest md v = s.advance) := by
  cases h : s.accepts
  · exact .inr ⟨rfl, by simp [State.sendRequest, h, State.advance_present_of_not_accepts h]⟩
  · exact .inl ⟨rfl, by simp [State.sendRequest, h, State.advance_present_of_accepts h]⟩

/-- A request uses up at least one tick's inputs. -/
theorem State.sendRequest_inputs (s : State) (md : Mode) (v : Byte) : (s.sendRequest md v).inputs <:+ s.inputs.tail := by
  rcases s.sendRequest_cases md v with ⟨-, h⟩ | ⟨-, h⟩ <;> rw [h]
  · exact runTransfer_inputs _ _ rfl
  · exact List.suffix_rfl

/-- The state after a write of a transfer has been answered `ok`. -/
def State.written (s : State) (rest : List TickIn) : State :=
  (s.busOk (busData s.cfg.masks s.val s.mode s.ph)).enterWait.withInputs rest

/-- The state after a wait has passed. -/
def State.waited (s : State) (rest : List TickIn) : State :=
  { s with cnt := 0, ph := s.ph.next, done := s.ph == .lWait3, inputs := rest }

/-- The state after a write of a transfer has been answered `ok` and its wait has passed. -/
def State.pulsed (s : State) (rest : List TickIn) : State := (s.written rest).waited rest

/-- A requested write is answered `ok`. -/
theorem runTransfer_ok {is rest : List TickIn} {s : State} (hw : s.ph.isWrite = true)
    (h : Env.answer is = some (.ok, rest)) : runTransfer is s = runTransfer rest (s.written rest) := by
  induction is generalizing s with
  | nil => cases h
  | cons i is ih =>
    have hb : s.busy = true := Phase.isWrite_inTransfer hw
    unfold Env.answer at h
    split at h; · cases h
    rename_i hd
    have hr := (TickIn.of_not_disturbed (by simpa using hd)).1
    cases ha : i.busAck <;> simp only [ha, Bool.false_eq_true, if_false, if_true] at h
    · simp only [runTransfer, hb, if_true]
      rw [ih (by simpa [tick_of_write hr hw, tickWrite, ha] using hw) h]
      simp only [tick_of_write hr hw, tickWrite, ha]; rfl
    · cases he : i.busErr <;> simp [he] at h
      subst h
      simp [runTransfer, hb, tick_of_write hr hw, tickWrite, ha, he, State.written]

/-- A requested write is answered with `BusError`. -/
theorem runTransfer_err {is rest : List TickIn} {s : State} (hw : s.ph.isWrite = true)
    (h : Env.answer is = some (.err, rest)) :
    runTransfer is s =
      (s.takeTransmissionFailure (busData s.cfg.masks s.val s.mode s.ph)).withInputs rest := by
  induction is generalizing s with
  | nil => cases h
  | cons i is ih =>
    have hb : s.busy = true := Phase.isWrite_inTransfer hw
    unfold Env.answer at h
    split at h; · cases h
    rename_i hd
    have hr := (TickIn.of_not_disturbed (by simpa using hd)).1
    cases ha : i.busAck <;> simp only [ha, Bool.false_eq_true, if_false, if_true] at h
    · simp only [runTransfer, hb, if_true]
      rw [ih (by simpa [tick_of_write hr hw, tickWrite, ha] using hw) h]
      simp only [tick_of_write hr hw, tickWrite, ha]; rfl
    · cases he : i.busErr <;> simp [he] at h
      subst h
      simp only [runTransfer, hb, if_true, tick_of_write hr hw, tickWrite, ha, he]
      cases is <;> simp [runTransfer, State.busy, Phase.inTransfer, Phase.num]

/-- A wait phase passes in `CNT + 1` ticks. -/
theorem runTransfer_wait {is rest : List TickIn} {s : State} (hw : s.ph.isWait = true)
    (h : Env.pass (s.cnt + 1) is = some rest) :
    runTransfer is s =
      runTransfer rest (s.waited rest) := by
  induction is generalizing s with
  | nil => cases h
  | cons i is ih =>
    have hb : s.busy = true := Phase.isWait_inTransfer hw
    unfold Env.pass at h
    split at h; · cases h
    rename_i hd
    have hr := (TickIn.of_not_disturbed (by simpa using hd)).1
    simp only [runTransfer, hb, if_true, tick_of_wait hr hw, tickWait]
    by_cases hc : s.cnt = 0
    · simp only [hc, Env.pass, Option.some.injEq] at h
      subst h
      simp [hc, State.waited, State.withInputs]
    · obtain ⟨n, hn⟩ := Nat.exists_eq_succ_of_ne_zero hc
      simp only [hc, if_false]
      rw [ih (by simpa using hw) (by simpa [hn] using h)]
      rfl

/-- One write and its wait. -/
theorem runTransfer_pulse {is js ks : List TickIn} {s : State} (hw : s.ph.isWrite = true)
    (ha : Env.answer is = some (.ok, js)) (hp : Env.pass (s.cfg.waitTicks + 1) js = some ks) :
    runTransfer is s = runTransfer ks (s.pulsed ks) := by
  rw [runTransfer_ok hw ha, runTransfer_wait (by simpa [State.written] using Phase.isWrite_next hw)
    (by simpa [State.written] using hp)]
  rfl

@[simp] theorem State.pulsed_cfg (s : State) (is : List TickIn) : (s.pulsed is).cfg = s.cfg := rfl
@[simp] theorem State.pulsed_val (s : State) (is : List TickIn) : (s.pulsed is).val = s.val := rfl
@[simp] theorem State.pulsed_mode (s : State) (is : List TickIn) : (s.pulsed is).mode = s.mode := rfl
@[simp] theorem State.pulsed_ph (s : State) (is : List TickIn) : (s.pulsed is).ph = s.ph.next.next := rfl
@[simp] theorem State.pulsed_cnt (s : State) (is : List TickIn) : (s.pulsed is).cnt = 0 := rfl
@[simp] theorem State.pulsed_done (s : State) (is : List TickIn) : (s.pulsed is).done = (s.ph.next == .lWait3) := rfl
@[simp] theorem State.pulsed_xp (s : State) (is : List TickIn) : (s.pulsed is).xp = busData s.cfg.masks s.val s.mode s.ph := rfl
@[simp] theorem State.pulsed_trace (s : State) (is : List TickIn) : (s.pulsed is).trace = s.trace ++ [okTxn (busData s.cfg.masks s.val s.mode s.ph)] := rfl
@[simp] theorem State.pulsed_rx (s : State) (is : List TickIn) : (s.pulsed is).rx = receive s.cfg.masks (busData s.cfg.masks s.val s.mode s.ph) s.rx := rfl
@[simp] theorem State.pulsed_inputs (s : State) (is : List TickIn) : (s.pulsed is).inputs = is := rfl
@[simp] theorem State.pulsed_draws (s : State) (is : List TickIn) : (s.pulsed is).draws = s.draws := rfl

/-- A transfer stops at once where nothing is in progress. -/
theorem runTransfer_of_not_busy {is : List TickIn} {s : State} (h : s.busy = false) : runTransfer is s = s := by
  cases is <;> simp [runTransfer, h]

/-- A transfer is ticks of the machine with its environment. -/
theorem runTransfer_eq_advanceN (is : List TickIn) (s : State) (h : s.inputs = is) :
    ∃ n, runTransfer is s = s.advanceN n := by
  induction is generalizing s with
  | nil => exact ⟨0, rfl⟩
  | cons i is ih =>
    by_cases hb : s.busy = true
    · obtain ⟨n, hn⟩ := ih ((tick i s).withInputs is) rfl
      refine ⟨n + 1, ?_⟩
      simp only [runTransfer, hb, if_true, hn, State.advanceN, State.advance, State.nextIn, h, List.headD_cons,
        List.tail_cons]
    · exact ⟨0, by simp [runTransfer, hb, State.advanceN]⟩

end Sys2Proof.Machine
end

