-- ==== Sys2Proof/Laws/Step.lean ====
section
/-! SUPPORT. What each meaning and one step can do. -/

namespace Sys2Proof

/-- A request's word decodes to the request (30_encoding.md R50, R55). -/
@[simp] theorem decodeReq_encodeReq (md : Mode) (v : Byte) : decodeReq (encodeReq md v) = requestInstr md v := by
  have h : ∀ v : Byte, decodeReq (encodeReq .command v) = .sendc v ∧ decodeReq (encodeReq .data v) = .sendd v := by
    decide +kernel
  cases md
  · exact (h v).1
  · exact (h v).2

namespace Machine

/-- Both requests run the shared operation. -/
theorem exec_requestInstr (md : Mode) (v : Byte) (s : State) : exec (requestInstr md v) s = s.underPremises (s.sendRequest md v) := by
  cases md <;> rfl

/-- A bus byte that runs is the byte NT4 requests, and the run is one tick. -/
theorem State.busWrite_next {s t : State} {b : Byte} (h : s.busWrite b = .next t) :
    s.busWdata = some b ∧ t = s.advance := by
  unfold State.busWrite at h
  split at h
  · rename_i hb
    exact ⟨hb, State.underPremises_next h⟩
  · cases h

/-- A request word is what an idle machine fetches; a bus byte is what a machine in a write phase fetches. -/
theorem State.fetch_request {s : State} (hr : s.nextIn.rst = false) (hp : s.ph = .idle) (hv : s.nextIn.reqValid = true) :
    s.fetch = .instr (requestInstr s.nextIn.reqMode s.nextIn.reqValue) := by
  simp [State.fetch, hr, s.ready_iff.mpr hp, hv, decode, TickIn.reqWord]

/-- Everything one step can do: a tick, or an accepted request's transfer after the accepting tick. -/
theorem step_cases {s t : State} (h : step s = .next t) :
    t = s.advance ∨
    (t = runTransfer s.inputs.tail s.advance ∧ s.ph = .idle ∧ s.nextIn.rst = false ∧ s.nextIn.reqValid = true) := by
  unfold step at h
  split at h
  · rename_i i hf
    unfold State.fetch at hf
    split at hf; · cases hf
    rename_i hr
    simp only [Bool.not_eq_true] at hr
    split at hf
    · rename_i hd
      have hp := s.ready_iff.mp hd
      split at hf
      · rename_i hv
        simp only [decode, TickIn.reqWord, decodeReq_encodeReq] at hf
        injection hf with hf
        subst hf
        rw [exec_requestInstr] at h
        have h := State.underPremises_next h
        rcases s.sendRequest_cases s.nextIn.reqMode s.nextIn.reqValue with ⟨-, k⟩ | ⟨ha, -⟩
        · refine .inr ⟨?_, hp, hr, hv⟩
          rw [h, k, State.advance, tick_of_idle hr hp, tickIdle, hv]
          rfl
        · exact absurd (s.accepts_iff.mpr ⟨hp, hr⟩) (by simp [ha])
      · cases hf
    · split at hf
      · cases hf
      · rename_i b hb
        split at hf <;> [skip; cases hf]
        injection hf with hf
        subst hf
        rename_i i hi
        cases i with
        | sendc v => simp only [decode, decodeBus] at hi; (repeat' split at hi) <;> simp at hi
        | sendd v => simp only [decode, decodeBus] at hi; (repeat' split at hi) <;> simp at hi
        | busbE0 d r => exact .inl (State.busWrite_next h).2
        | busbE1 d r => exact .inl (State.busWrite_next h).2
  · exact .inl (State.underPremises_next h)
  · cases h

/-- A property every tick keeps is kept by a transfer. -/
theorem runTransfer_induct {P : State → Prop} (hp : ∀ i s rest, P s → P ((tick i s).withInputs rest)) :
    ∀ (is : List TickIn) (s : State), P s → P (runTransfer is s) := by
  intro is
  induction is with
  | nil => intro s h; exact h
  | cons i is ih =>
    intro s h
    unfold runTransfer
    split
    · exact ih _ (hp i s is h)
    · exact h

/-- A property every tick keeps is kept by every step. -/
theorem step_induct {P : State → Prop} (hp : ∀ i s rest, P s → P ((tick i s).withInputs rest)) {s t : State}
    (h : step s = .next t) (hs : P s) : P t := by
  rcases step_cases h with rfl | ⟨rfl, -⟩
  · exact hp _ _ _ hs
  · exact runTransfer_induct hp _ _ (hp _ _ _ hs)

end Machine

end Sys2Proof
end

