-- ==== Sys2Proof/Tests/Slice0.lean ====
section
/-! SUPPORT. Tests with expected results from spec/95_test_vectors.md and the rules, and for each obligation with hypotheses a witness
that meets them. -/

namespace Sys2Proof.Tests

open Sys2Proof.Machine

/-! ## Small inputs and states -/

/-- The bus acknowledges at this tick. -/
def ack : TickIn := { TickIn.quiet with busAck := true }

/-- The bus answers with `BusError` at this tick. -/
def nack : TickIn := { TickIn.quiet with busAck := true, busErr := true }

/-- Reset at this tick, with an acknowledge and a request beside it. -/
def rstTick : TickIn := { ack with rst := true, reqValid := true }

/-- Another agent writes 0x27 at this tick. -/
def foreign : TickIn := { TickIn.quiet with otherWrite := some 0xFF#8 }

/-- RegisterBus is not set up at this tick. -/
def unready : TickIn := { TickIn.quiet with busReady := false }

/-- A second agent presents a request at this tick. -/
def second : TickIn := { TickIn.quiet with otherRequest := some (.data, 0x41#8) }

/-- A request on the port at this tick. -/
def ask (m : Mode) (v : Byte) : TickIn := { TickIn.quiet with reqValid := true, reqMode := m, reqValue := v }

/-- The 24 ticks of a transfer on a bus that answers at once, `WAIT_TICKS` = 2 (95 T1). -/
def goodBus : List TickIn := Env.regular 2 1 6

/-- One good write, then a `BusError`. -/
def badBus : List TickIn := Env.regular 2 1 1 ++ [nack]

/-- A state in a given phase with 0x41 and Data in the latches. -/
def inPhase (p : Phase) : State := { State.reset with ph := p, val := 0x41#8, mode := .data }

/-- An idle state with coming inputs, the enable line low. -/
def idleWith (is : List TickIn) : State := State.withInputs (State.resetOf { Config.default with xpInit := 0x08#8 }) is

/-- Masks other than the default ones, admitted by R8. -/
def otherMasks : Masks := { rs := 0x08#8, rw := 0x01#8, en := 0x02#8, bl := 0x04#8 }

/-- The machine in `H_WAIT2` of `SENDD 0x41`, as a run leaves it. -/
def inPulse : State :=
  { inPhase .hWait2 with
    cnt := 2, xp := 0x4D#8, trace := [okTxn 0x49#8, okTxn 0x4D#8], rx := { line := 0x4D#8, rxn := none, delivered := [] } }

/-! ## Well-formedness: each check refuses an ill-formed term -/

theorem test_wf_default : Config.default.wf = true := by decide

theorem test_wf_other_masks : ({ Config.default with masks := otherMasks } : Config).wf = true := by decide

theorem test_wf_mask_not_one_hot :
    ({ Config.default with masks := { Masks.default with rs := 0x00#8 } } : Config).wf = false := by decide

theorem test_wf_mask_two_bits :
    ({ Config.default with masks := { Masks.default with rs := 0x03#8 } } : Config).wf = false := by decide

theorem test_wf_masks_overlap :
    ({ Config.default with masks := { Masks.default with rw := 0x01#8 } } : Config).wf = false := by decide

theorem test_wf_masks_union :
    ({ Config.default with masks := { Masks.default with bl := 0x10#8 } } : Config).wf = false := by decide

theorem test_wf_no_wait_ticks : ({ Config.default with waitTicks := 0 } : Config).wf = false := by decide

theorem test_wf_wait_too_short : ({ Config.default with tClkPs := 249999999 } : Config).wf = false := by decide

theorem test_wf_text_below : (Macro.text ['A', '\t']).wf = false := by decide

theorem test_wf_text_above : (Macro.text [Char.ofNat 0x7F]).wf = false := by decide

theorem test_wf_text_bounds : (Macro.text [' ', '~']).wf = true := by decide

theorem test_wf_seven_glyphs : (Macro.loadGlyphs (List.replicate 7 (List.replicate 8 0#8))).wf = false := by decide

theorem test_wf_seven_rows : (Macro.loadGlyphs (List.replicate 8 (List.replicate 7 0#8))).wf = false := by decide

theorem test_wf_instr : (Instr.sendc 0xFF#8).wf = true := by decide

/-! ## Decoding: words written out from 30_encoding.md R50, R51, R55 -/

/-- `SENDC 0x40` = `0 01000000` (R59). -/
theorem test_decode_sendc : decodeTableWord 9 0b001000000 = some (.sendc 0x40#8) := by decide

/-- `SENDD 'A'` = `1 01000001` (R59). -/
theorem test_decode_sendd : decodeTableWord 9 0b101000001 = some (.sendd 0x41#8) := by decide

/-- `dddd 1 0 0 r` with d = 1010, r = 0 (R55). -/
theorem test_decode_busbE0 : decodeTableWord 8 0b10101000 = some (.busbE0 0xA#4 .command) := by decide

/-- `dddd 1 1 0 r` with d = 0001, r = 1 (R55). -/
theorem test_decode_busbE1 : decodeTableWord 8 0b00011101 = some (.busbE1 0x1#4 .data) := by decide

/-- Bit 3 clear (R57). -/
theorem test_decode_backlight_off : decode Masks.default (.bus8 0xF4#8) = .error .backlightOff := by decide

/-- Bit 1 set (R57). -/
theorem test_decode_read_line : decode Masks.default (.bus8 0x4A#8) = .error .readLineHigh := by decide

/-- Under other masks the same classes have other low bits (R8). -/
theorem test_decode_other_masks : decode otherMasks (.bus8 0xAE#8) = .ok (.busbE1 0xA#4 .data) := by decide

/-- The listing of a program (R61). -/
theorem test_listing :
    [Item.send .command 0x40#8, .send .data 0x41#8, .delay].map Item.listing =
      ["040".toList, "141".toList, "DELAY".toList] := by decide

/-- A quoted space and a quoted `;` are literals; text right after a closing quote is refused (log 15). -/
theorem test_parse_quoted :
    parseLine "SENDD ' ' ; a space".toList = some (.send .data 0x20#8) ∧
    parseLine "SENDD ';'".toList = some (.send .data 0x3B#8) ∧ parseLine "SENDD 'A'x".toList = none ∧
    parseLine "SENDD 'A';x".toList = some (.send .data 0x41#8) := by decide

/-- R59's two lines, its comment and its character literal. -/
theorem test_parse :
    parseLine "SENDC 0x40        ; sendByte(0x40, Command)".toList = some (.send .command 0x40#8) ∧
    parseLine "SENDD 'A'".toList = some (.send .data 0x41#8) ∧ parseLine "SENDD 65".toList = some (.send .data 0x41#8) ∧
    parseLine "SENDC 256".toList = none := by decide

/-! ## Instructions -/

/-- 95 V1: `SENDC 0x01`. -/
theorem test_bytes_sendc :
    transferBytes Masks.default 0x01#8 .command = [0x08#8, 0x0C#8, 0x08#8, 0x18#8, 0x1C#8, 0x18#8] := by decide

/-- 95 V1: `SENDD 0xA5`, nibble order A then 5. -/
theorem test_bytes_sendd :
    transferBytes Masks.default 0xA5#8 .data = [0xA9#8, 0xAD#8, 0xA9#8, 0x59#8, 0x5D#8, 0x59#8] := by decide

/-- 95 T1: `SENDC 0x01` with a bus that answers at once: six writes, `DONE`, nothing left of the 24 ticks. -/
theorem test_step_sendc :
    ∃ t, exec (.sendc 0x01#8) (idleWith (ask .command 0x01#8 :: goodBus)) = .next t ∧ t.done = true ∧ t.ph = .idle ∧ t.inputs = [] ∧
      t.trace = [0x08#8, 0x0C#8, 0x08#8, 0x18#8, 0x1C#8, 0x18#8].map okTxn :=
  ⟨_, rfl, by decide⟩

/-- 95 V4, k = 2: `SENDD 0x41` fails at its second write. -/
theorem test_step_sendd_fails :
    ∃ t, exec (.sendd 0x41#8) (idleWith (ask .data 0x41#8 :: badBus)) = .next t ∧ t.ph = .fault ∧ t.done = false ∧
      t.trace = [okTxn 0x49#8, errTxn 0x4D#8] :=
  ⟨_, rfl, by decide⟩

/-- 95 T1 tick 1, with the bytes of V1's `SENDD 0x41`: the setup write completes. -/
theorem test_step_busbE0 :
    ∃ t, exec (.busbE0 0x4#4 .data) { inPhase .hSetup with inputs := [ack] } = .next t ∧ t.ph = .hWait1 ∧ t.cnt = 2 ∧
      t.xp = 0x49#8 :=
  ⟨_, rfl, by decide⟩

/-- 95 T1 tick 5: the enable-high write completes. -/
theorem test_step_busbE1 :
    ∃ t, exec (.busbE1 0x4#4 .data) { inPhase .hEnHi with inputs := [ack] } = .next t ∧ t.ph = .hWait2 ∧ t.cnt = 2 ∧
      t.xp = 0x4D#8 :=
  ⟨_, rfl, by decide⟩

/-- A byte NT4 does not request (20_memory.md R45). -/
theorem test_busb_not_exclusive : exec (.busbE1 0x4#4 .data) (inPhase .hSetup) = .refused .busNotExclusive := rfl

/-- The same outside a write phase (93_implementation_defined.md U5). -/
theorem test_busb_no_write : exec (.busbE0 0x4#4 .data) (inPhase .hWait1) = .refused .busNotExclusive := rfl

/-- Reading `bus_wdata` with no write requested (93_implementation_defined.md U11). -/
theorem test_read_bus_wdata : (inPhase .hWait1).readBusWdata = .error .unspecifiedBusData := rfl

/-- Another agent writes in the middle of a transfer (20_memory.md R45). -/
theorem test_foreign_write :
    exec (.sendd 0x41#8) (idleWith [ask .data 0x41#8, ack, foreign]) = .refused .busNotExclusive := rfl

/-- RegisterBus is not set up when NT4 leaves reset (60_exceptions.md R141); while reset lasts it need not be. -/
theorem test_bus_not_ready :
    step (idleWith [unready]) = .refused .busNotReady ∧ (∃ t, step (idleWith [{ unready with rst := true }]) = .next t) ∧
    ¬ BusReady [ask .data 0x41#8, unready] ∧ BusReady [{ unready with rst := true }, TickIn.quiet] :=
  ⟨rfl, ⟨_, rfl⟩, by decide, by decide⟩

/-- A second requester shows up in the middle of a transfer (93_implementation_defined.md U4). -/
theorem test_second_requester :
    exec (.sendd 0x41#8) (idleWith [ask .data 0x41#8, ack, second]) = .refused .notOneRequester ∧
    step (idleWith [second]) = .refused .notOneRequester := ⟨rfl, rfl⟩

/-- A requester may drop its request at a reset, and nowhere else before its acceptance (70_reset_and_hazards.md R171). -/
theorem test_one_requester_drop :
    ¬ OneRequester (fun n => if n = 0 then ask .data 0x41#8 else TickIn.quiet) (inPhase .hWait1) :=
  fun h => by simpa [TickIn.quiet] using (h.2 0 rfl rfl rfl).1

theorem test_one_requester_reset :
    OneRequester (fun n => if n = 0 then { ask .data 0x41#8 with rst := true } else TickIn.quiet) (inPhase .hWait1) := by
  refine ⟨fun n => ?_, fun n hv hr => ?_⟩
  · by_cases h : n = 0 <;> simp [h, ask, TickIn.quiet]
  · by_cases h : n = 0 <;> simp [h, TickIn.quiet] at hv hr

/-- 70 R178: a request abandoned by a reset, the next one completed: the run has ended, and the end is not final. -/
theorem test_ended_not_final :
    let is := ask .command 0x01#8 :: rstTick :: ask .data 0x41#8 :: goodBus
    Ended [(.command, 0x01#8), (.data, 0x41#8)] is (idleWith []) ∧ completions is (idleWith []) = 1 ∧
    ¬ FinalEnd [(.command, 0x01#8), (.data, 0x41#8)] is (idleWith []) := by
  refine ⟨⟨rfl, rfl, rfl⟩, rfl, fun h => ?_⟩
  exact h.2.2 (Config.freeXp 0) (by rw [show tickLabels _ _ = _ from rfl]; exact List.mem_cons_self)

/-- NT4 at the last tick of a request of the requester, which has one more to send. -/
def lastTick : System :=
  { nt4 := inPhase .lWait3, req := { Requester.start with items := [.send .command 0x01#8], pending := true } }

/-- 42 R120: the next request is presented after the one before it has been completed, and not before. -/
theorem test_requester_waits :
    (lastTick.inputs TickIn.quiet).reqValid = false ∧
    ((System.run [TickIn.quiet] lastTick).inputs TickIn.quiet).reqValid = false ∧
    ((System.run [TickIn.quiet, TickIn.quiet] lastTick).inputs TickIn.quiet).reqValid = true := by decide

/-- Reset is tested before the request (41_pulse_sequencer.md R90). -/
theorem test_reset_first : (tick rstTick (inPhase .idle)).ph = .idle := by decide

/-- 95 V5, first row. -/
theorem test_receiver_clean :
    receiveAll Masks.default
        (transferBytes Masks.default 0x80#8 .command ++ transferBytes Masks.default 0x48#8 .data)
        { line := 0x08#8, rxn := none, delivered := [] } =
      { line := 0x89#8, rxn := none, delivered := [(.command, 0x80#8), (.data, 0x48#8)] } := by decide

/-- 95 V5, second row: one spurious nibble first. -/
theorem test_receiver_enable_high :
    receiveAll Masks.default
        (transferBytes Masks.default 0x80#8 .command ++ transferBytes Masks.default 0x48#8 .data ++
          transferBytes Masks.default 0x69#8 .data) { line := 0xFF#8, rxn := none, delivered := [] } =
      { line := 0x99#8, rxn := some (.data, 0x9#4),
        delivered := [(.command, 0xF8#8), (.data, 0x04#8), (.data, 0x86#8)] } := by decide +kernel

/-- 40 R79: `x(i-1)` is `XP` after the `ok` write before, so the nibble of 0x4C is taken at the next `ok` write although a failed write and
a reset lie between. -/
theorem test_receiver_across_draw :
    let s : State :=
      { inPhase .hWait2 with xp := 0x4C#8, trace := [okTxn 0x4C#8], rx := { line := 0x4C#8, rxn := none, delivered := [] } }
    (ticks [TickIn.quiet, nack, rstTick, ask .command 0x80#8, ack] s).rx =
      { line := 0x88#8, rxn := some (.command, 0x4#4), delivered := [] } := by decide

/-- 95 P5 and 42 R129: 16 bytes and 96 writes. -/
theorem test_macro_counts :
    (expandAll MacroConsts.default [.setPos 0x80 0, .text "CCTF loves you!".toList]).toOption.map busWritesOf = some 96 := by
  decide

/-- 42 R122: six bytes, then the settle delay. -/
theorem test_macro_init :
    (Macro.expand MacroConsts.default .init).toOption.map (fun l => (requestsOf l).map Prod.snd) =
      some [0x33#8, 0x32#8, 0x28#8, 0x06#8, 0x0C#8, 0x01#8] := by decide

/-- 42 R124: an offset of 16 is transported, no carry is kept. -/
theorem test_macro_setpos :
    Macro.expand MacroConsts.default (.setPos 0x80 16) = .ok [.send .command 0x90#8] ∧
    Macro.expand MacroConsts.default (.setPos 0xC0 0x50) = .ok [.send .command 0x10#8] := by decide

/-! ## Witnesses: for each obligation with hypotheses, inputs that meet them -/

theorem witness_DecodeEncodeRoundTrip : Masks.default.Ok ∧ otherMasks.Ok := by decide

theorem witness_EncodeDecodeRoundTrip :
    Masks.default.Ok ∧ decode Masks.default (.req9 0x141#9) = .ok (.sendd 0x41#8) ∧
    decode Masks.default (.bus8 0x49#8) = .ok (.busbE0 0x4#4 .data) := by decide

theorem witness_OpcodeMapByMatchAndMask :
    (0x0FF#9 &&& 0x100#9 = 0x000#9) ∧ (0x100#9 &&& 0x100#9 = 0x100#9) ∧ (0xF9#8 &&& 0x0E#8 = 0x08#8) ∧
    (0x0C#8 &&& 0x0E#8 = 0x0C#8) := by decide

theorem witness_BusByteByPhase :
    otherMasks.Ok ∧ Phase.hEnHi.num ∈ [3, 9] ∧ Phase.hSetup.num ∈ [1, 5, 7, 11] ∧ Phase.lEnLo.num ∈ [1, 5, 7, 11] ∧
    Phase.idle.num ∈ [0, 2, 4, 6, 8, 10, 12, 13] ∧ Phase.fault.num ∈ [0, 2, 4, 6, 8, 10, 12, 13] := by decide

theorem witness_SetupByteLaws : otherMasks.Ok := by decide

theorem witness_EmittedBytes :
    (busByte Masks.default 0xFF#8 .data .lEnHi = some 0xFD#8) ∧ ((0xFD#8).getLsbD 3 = true ∧ (0xFD#8).getLsbD 1 = false) ∧
    ∃ t, step { inPhase .hSetup with inputs := [ack] } = .next t ∧ t.trace = [okTxn 0x49#8] :=
  ⟨by decide, by decide, _, rfl, by decide⟩

theorem witness_BusByteClassByPhase : otherMasks.Ok := by decide

theorem witness_PhaseDecodesToNibbleAndStep :
    (1 ≤ Phase.hSetup.num ∧ Phase.hSetup.num ≤ 12) ∧ (1 ≤ Phase.lWait3.num ∧ Phase.lWait3.num ≤ 12) := by decide

theorem witness_OutputsFromStateOnly :
    (inPhase .lEnLo).outputs.busWr = true ∧ (inPhase .lWait3).outputs.busWr = false := by decide

theorem witness_IdleAcceptsRequest :
    (inPhase .idle).ph.num = 0 ∧ (ask .data 0x00#8).rst = false ∧ (ask .data 0x00#8).reqValid = true ∧
    TickIn.quiet.reqValid = false ∧ (inPhase .hSetup).ph.num ≠ 0 := by decide

theorem witness_WriteCompletesOk :
    (inPhase .hSetup).ph.num ∈ [1, 3, 5, 7, 9, 11] ∧ (inPhase .lEnLo).ph.num ∈ [1, 3, 5, 7, 9, 11] ∧ ack.rst = false ∧
    ack.busAck = true ∧ ack.busErr = false := by decide

theorem witness_UnansweredWriteHangs :
    (inPhase .lEnLo).ph.num ∈ [1, 3, 5, 7, 9, 11] ∧ NoReset [TickIn.quiet, TickIn.quiet] ∧
    (∀ i ∈ [TickIn.quiet, TickIn.quiet], i.busAck = false) ∧ [TickIn.quiet, TickIn.quiet] ≠ [] := by decide

theorem witness_FailedWriteEntersFault :
    (inPhase .lSetup).ph.num ∈ [1, 3, 5, 7, 9, 11] ∧ nack.rst = false ∧ nack.busAck = true ∧ nack.busErr = true ∧
    NoReset [ack, ask .command 0x01#8] := by decide

theorem witness_FaultFlagSetAndCleared :
    (inPhase .hSetup).faulted = false ∧ (inPhase .fault).faulted = true ∧ nack.rst = false ∧ rstTick.rst = true := by decide

theorem witness_WaitPhaseCountsDown :
    (inPhase .hWait1).ph.num ∈ [2, 4, 6, 8, 10, 12] ∧ (inPhase .hWait1).cnt = 0 ∧ inPulse.cnt ≠ 0 ∧
    inPulse.ph.num ∈ [2, 4, 6, 8, 10, 12] ∧ inPulse.cnt = inPulse.cfg.waitTicks ∧ NoReset [ack, ack, ack] ∧
    [ack, ack].length ≤ inPulse.cfg.waitTicks ∧ [ack, ack, ack].length = inPulse.cfg.waitTicks + 1 ∧ nack.rst = false := by
  decide

theorem witness_CompletionPulsesDone :
    (inPhase .lWait3).ph.num = 12 ∧ (inPhase .lWait3).cnt = 0 ∧ TickIn.quiet.rst = false ∧ (ask .data 0x41#8).reqValid = true := by
  decide

theorem witness_FaultStateIsSticky :
    (inPhase .fault).ph.num = 13 ∧ NoReset [ack, nack, ask .data 0x41#8] ∧ [ack, nack, ask .data 0x41#8] ≠ [] ∧
    (ticks [nack] (inPhase .lEnLo)).ph.num = 13 := by decide

theorem witness_IgnoredInputs :
    (inPhase .hWait2).ph.num ≠ 0 ∧ (inPhase .hWait2).ph.num ∉ [1, 3, 5, 7, 9, 11] ∧ TickIn.quiet.busAck = false := by decide

/-- One state and input for each row of R103's table. -/
theorem witness_TransitionTable :
    rstTick.rst = true ∧
    ((inPhase .idle).ph.num = 0 ∧ (ask .data 0x41#8).reqValid = true ∧ TickIn.quiet.reqValid = false) ∧
    ((inPhase .lEnLo).ph.num ∈ [1, 3, 5, 7, 9, 11] ∧ ack.busAck = true ∧ ack.busErr = false ∧ nack.busErr = true ∧
      TickIn.quiet.busAck = false) ∧
    (inPulse.ph.num ∈ [2, 4, 6, 8, 10, 12] ∧ inPulse.cnt ≠ 0) ∧
    ((inPhase .lWait2).ph.num ∈ [2, 4, 6, 8, 10] ∧ (inPhase .lWait2).cnt = 0) ∧
    ((inPhase .lWait3).ph.num = 12 ∧ (inPhase .lWait3).cnt = 0) ∧ (inPhase .fault).ph.num = 13 ∧ ack.rst = false := by decide

theorem witness_ResetTickAbandons :
    rstTick.rst = true ∧ (inPhase .hWait2).busWr = false ∧ (ask .data 0x41#8).rst = false ∧ (ask .data 0x41#8).reqValid = true ∧
    TickIn.quiet.reqValid = false := by decide

theorem inPulse_inv : Inv inPulse := by
  constructor <;> decide

theorem witness_ResetInPulseLeavesEnableHigh :
    inPulse.cfg.masks.Ok ∧ Inv inPulse ∧ inPulse.ph.num ∈ [4, 10] ∧ rstTick.rst = true :=
  ⟨by decide, inPulse_inv, by decide, by decide⟩

theorem witness_WritesSpacedByWait :
    (inPhase .hSetup).cfg.TimingOk ∧ (inPhase .hSetup).busWr = true ∧ ack.rst = false ∧ ack.busAck = true ∧ ack.busErr = false ∧
    NoReset [TickIn.quiet, TickIn.quiet, TickIn.quiet] ∧
    (ticks [TickIn.quiet, TickIn.quiet, TickIn.quiet] (tick ack (inPhase .hSetup))).busWr = true := by decide

theorem witness_TransferTickCount :
    (inPhase .idle).ph.num = 0 ∧ (ask .command 0x01#8).rst = false ∧ (ask .command 0x01#8).reqValid = true ∧ 1 ≤ 1 := by decide

theorem witness_IdleLatchesAreUnread : (inPhase .idle).ph.num = 0 := by decide

/-- A bus that acknowledges at every tick. -/
theorem witness_AnsweredTransferEnds :
    (inPhase .hSetup).busy = true ∧ (∀ n : Nat, ((fun _ => ack) n : TickIn).rst = false) ∧
    (∀ n : Nat, ((fun _ => ack) n : TickIn).busErr = false) ∧ BusAnswers (fun _ => ack) (inPhase .hSetup) :=
  ⟨by decide, fun _ => rfl, fun _ => rfl, fun n _ => ⟨n, le_rfl, rfl⟩⟩

/-- The inputs of a whole transfer meet the premises of O29. -/
theorem witness_RequestCompletesWithSixWrites :
    let s := idleWith (ask .data 0x41#8 :: goodBus)
    s.cfg.masks.Ok ∧ s.ph = .idle ∧ s.nextIn.disturbed = false ∧ Env.okWrites s.cfg.waitTicks 6 s.inputs.tail = some [] := by decide

theorem witness_SendcTransfersCommandByte :
    let s := idleWith (ask .command 0x00#8 :: goodBus)
    let f := idleWith (ask .command 0xFF#8 :: (Env.regular 2 1 5 ++ [nack]))
    (s.cfg.masks = Masks.default ∧ s.ph = .idle ∧ s.nextIn.disturbed = false ∧
      Env.okWrites s.cfg.waitTicks 6 s.inputs.tail = some []) ∧
    (f.cfg.masks = Masks.default ∧ 5 < 6 ∧ f.ph = .idle ∧ f.nextIn.disturbed = false ∧
      Env.failsAfter f.cfg.waitTicks 5 f.inputs.tail = some []) := by decide

theorem witness_SenddTransfersDataByte :
    let s := idleWith (ask .data 0x00#8 :: goodBus)
    let f := idleWith [ask .data 0xFF#8, nack]
    (s.cfg.masks = Masks.default ∧ s.ph = .idle ∧ s.nextIn.disturbed = false ∧
      Env.okWrites s.cfg.waitTicks 6 s.inputs.tail = some []) ∧
    (f.cfg.masks = Masks.default ∧ 0 < 6 ∧ f.ph = .idle ∧ f.nextIn.disturbed = false ∧
      Env.failsAfter f.cfg.waitTicks 0 f.inputs.tail = some []) := by decide

theorem witness_FailureEndsTransfer :
    let s := idleWith (ask .data 0x41#8 :: badBus)
    s.cfg.masks.Ok ∧ 1 < 6 ∧ s.ph = .idle ∧ s.nextIn.disturbed = false ∧
    Env.failsAfter s.cfg.waitTicks 1 s.inputs.tail = some [] := by decide

theorem witness_TransferRefinesSendByte :
    let s := idleWith (ask .data 0x41#8 :: badBus)
    s.cfg.masks.Ok ∧ s.ph = .idle ∧ NoReset s.inputs ∧ BusExclusive s.inputs ∧ BusReady s.inputs ∧
    SingleDriver s.inputs := by decide

theorem witness_UnacceptedRequestIsIgnored :
    ((inPhase .fault).ph ≠ .idle ∧ (inPhase .fault).nextIn.violation = none) ∧
    ((idleWith [rstTick]).nextIn.rst = true ∧ (idleWith [rstTick]).nextIn.violation = none) := by decide

/-- A request accepted, with no reset ahead and no failed write. -/
theorem witness_RequestFrame :
    ∃ t, exec (requestInstr .data 0x41#8) (idleWith (TickIn.quiet :: goodBus)) = .next t ∧
      (idleWith (TickIn.quiet :: goodBus)).ph = .idle ∧ NoReset (idleWith (TickIn.quiet :: goodBus)).inputs ∧
      (∀ e ∈ t.trace, e.result = .ok) :=
  ⟨_, rfl, by decide⟩

theorem witness_BusbE0WritesByte :
    let s := fun i : TickIn => ({ inPhase .lEnLo with inputs := [i] } : State)
    ∀ i ∈ [ack, nack, TickIn.quiet],
      (s i).busWdata = some (encodeBus (s i).cfg.masks 0x1#4 .data false) ∧ (s i).nextIn.disturbed = false ∧ (s i).nextIn = i := by
  decide

theorem witness_BusbE1WritesByte :
    let s := fun i : TickIn => ({ inPhase .lEnHi with inputs := [i] } : State)
    ∀ i ∈ [ack, nack, TickIn.quiet],
      (s i).busWdata = some (encodeBus (s i).cfg.masks 0x1#4 .data true) ∧ (s i).nextIn.disturbed = false ∧ (s i).nextIn = i := by
  decide

theorem witness_BusByteStops :
    (inPhase .lWait3).busWr = false ∧ (inPhase .hSetup).busWr = true ∧
    (inPhase .lWait3).busWdata ≠ some (encodeBus (inPhase .lWait3).cfg.masks 0x1#4 .data false) ∧
    (inPhase .hSetup).busWdata ≠ some (encodeBus (inPhase .hSetup).cfg.masks 0x1#4 .data false) ∧
    (inPhase .hSetup).busWdata ≠ some (encodeBus (inPhase .hSetup).cfg.masks 0x4#4 .data true) := by decide

theorem witness_StepRunsDecodedInstruction :
    let s := idleWith [ask .data 0x41#8]
    let w := { inPhase .hEnHi with inputs := [ack] }
    (s.nextIn.rst = false ∧ s.ready = true ∧ s.nextIn.reqValid = true ∧
      decode s.cfg.masks (.req9 (encodeReq s.nextIn.reqMode s.nextIn.reqValue)) = .ok (.sendd 0x41#8)) ∧
    (w.nextIn.rst = false ∧ w.busWdata = some 0x4D#8 ∧ decode w.cfg.masks (.bus8 0x4D#8) = .ok (.busbE1 0x4#4 .data)) ∧
    (idleWith [rstTick]).nextIn.rst = true ∧
    ((idleWith []).ready = true ∧ (idleWith []).nextIn.reqValid = false) ∧
    (inPhase .hWait1).ph.isWait = true ∧ (inPhase .fault).faulted = true ∧
    (idleWith [rstTick]).nextIn.violation = none ∧ (inPhase .fault).nextIn.violation = none := by decide

theorem witness_PlacedWordRunsNext :
    State.reset.cfg.masks.Ok ∧ decodeBits State.reset.cfg.masks 9 0x1FF = some (.sendd 0xFF#8) ∧
    decodeBits State.reset.cfg.masks 8 0x0C = some (.busbE1 0x0#4 .command) := by decide

theorem witness_StepIsTicks : ∃ t, step (idleWith (ask .data 0x41#8 :: goodBus)) = .next t := ⟨_, rfl⟩

theorem witness_StepAlwaysAnswers :
    (idleWith goodBus).cfg.masks.Ok ∧ BusExclusive (idleWith goodBus).inputs ∧ BusReady (idleWith goodBus).inputs ∧
    SingleDriver (idleWith goodBus).inputs := by decide

theorem witness_StepKeepsInvariant :
    inPulse.cfg.masks.Ok ∧ Inv inPulse ∧ ∃ t, step inPulse = .next t :=
  ⟨by decide, inPulse_inv, _, rfl⟩

theorem witness_StepOnlyExtendsHistory : ∃ t, step { inPhase .lEnHi with inputs := [nack] } = .next t := ⟨_, rfl⟩

/-- The inputs of a program of two requests. -/
def twoRequests : List TickIn := ask .command 0x40#8 :: goodBus ++ TickIn.quiet :: ask .data 0x41#8 :: goodBus

theorem witness_ProgramWritesInOrder :
    let s := idleWith twoRequests
    s.cfg.masks.Ok ∧ s.ph = .idle ∧
    Env.serves s.cfg.waitTicks [(.command, 0x40#8), (.data, 0x41#8)] s.inputs = some [] := by decide

theorem witness_ReceiverGetsProgram :
    let s := idleWith twoRequests
    s.cfg.masks.Ok ∧ s.ph = .idle ∧ lineHigh s.cfg.masks.en s.rx.line = false ∧ s.rx.rxn = none ∧
    Env.serves s.cfg.waitTicks [(.command, 0x40#8), (.data, 0x41#8)] s.inputs = some [] := by decide

theorem witness_ServedProgramEndsFinal :
    (idleWith []).ph = .idle ∧ NoFault (idleWith []) ∧
    Env.serves (idleWith []).cfg.waitTicks [(.command, 0x40#8), (.data, 0x41#8)] twoRequests = some [] := by decide

theorem witness_TicksProjectOntoEvents : inPulse.cfg.TimingOk ∧ Agrees inPulse inPulse.project :=
  ⟨by decide, rfl, rfl, rfl, fun _ => ⟨rfl, rfl⟩⟩

/-- A wait of the exact length, and an acceptance. -/
theorem witness_EventsAreRealizedByTicks :
    (Agrees inPulse inPulse.project ∧
      ∃ e', inPulse.project.step inPulse.cfg.masks (.wait ((inPulse.cfg.waitTicks + 1) * inPulse.cfg.tClkPs)) = some e') ∧
    (Agrees (inPhase .idle) (inPhase .idle).project ∧
      ∃ e', (inPhase .idle).project.step (inPhase .idle).cfg.masks (.accept .data 0x41#8) = some e') ∧
    (Agrees (inPhase .hSetup) (inPhase .hSetup).project ∧
      ∃ e', (inPhase .hSetup).project.step (inPhase .hSetup).cfg.masks (.wrErr (Config.freeXp (inPhase .hSetup).draws)) =
        some e') :=
  ⟨⟨⟨rfl, rfl, rfl, fun _ => ⟨rfl, rfl⟩⟩, Option.isSome_iff_exists.mp (by decide)⟩, ⟨⟨rfl, rfl, rfl, fun _ => ⟨rfl, rfl⟩⟩, _, rfl⟩,
    ⟨⟨rfl, rfl, rfl, fun _ => ⟨rfl, rfl⟩⟩, _, rfl⟩⟩

/-- Eight equal rows. -/
def fullGlyph : List Byte := [0x1F#8, 0x1F#8, 0x1F#8, 0x1F#8, 0x1F#8, 0x1F#8, 0x1F#8, 0x1F#8]

/-- Eight equal glyphs. -/
def fullSet : List (List Byte) := [fullGlyph, fullGlyph, fullGlyph, fullGlyph, fullGlyph, fullGlyph, fullGlyph, fullGlyph]

theorem witness_LoadGlyphsExpansion : fullSet.length = 8 ∧ ∀ g ∈ fullSet, g.length = 8 := by decide

theorem witness_TextExpansion :
    (∀ c ∈ [' ', '~'], 0x20 ≤ c.toNat ∧ c.toNat ≤ 0x7E) ∧ (∃ c ∈ ['A', '\t'], c.toNat < 0x20 ∨ 0x7E < c.toNat) ∧
    (∃ c ∈ [Char.ofNat 0x7F], c.toNat < 0x20 ∨ 0x7E < c.toNat) :=
  ⟨(all_printable_iff [' ', '~']).mp (by decide), ⟨'\t', by decide⟩, ⟨Char.ofNat 0x7F, by decide⟩⟩

theorem witness_PositionRequiredAfterGlyphs :
    (∀ r c, Macro.setPos r c ∉ [Macro.clear]) ∧ (∃ s, Macro.text ['A'] = .text s) ∧ ∃ c, Macro.code 0x00#8 = .code c :=
  ⟨by simp, ⟨_, rfl⟩, _, rfl⟩

theorem witness_RequesterSendsInOrder : NoReset goodBus := by decide

theorem witness_PinsOfBusByte : otherMasks.Ok := by decide

theorem witness_ForeignWriteIsRefused :
    (idleWith [foreign]).nextIn.otherWrite ≠ none ∧ (idleWith [foreign]).cfg.masks.Ok := by decide

/-- A requester that presents its next request after the one in progress is completed. -/
theorem witness_RequesterAwaitsCompletion :
    (lastTick.nt4.busy = true ∧ lastTick.req.pending = true) ∧ lastTick.nt4.done = false ∧
    ((System.run [TickIn.quiet, TickIn.quiet] lastTick).inputs TickIn.quiet).reqValid = true := by decide

theorem witness_RequesterStopsAtFault : (inPhase .fault).faulted = true ∧ NoReset [ack, nack, ask .data 0x41#8] := by decide

theorem witness_ReceiverFollowsOkWrites :
    (inPulse.rx.line.getLsbD 2 = true ∧ (0x49#8).getLsbD 2 = false ∧ inPulse.rx.rxn = none) ∧
    (receive Masks.default 0x49#8 inPulse.rx).rxn = some (.data, 0x4#4) := by decide

theorem witness_ViolatedPremiseIsRefused :
    let s := fun (p : Phase) (i : TickIn) => ({ inPhase p with inputs := [i] } : State)
    ((s .idle unready).nextIn.otherWrite = none ∧ (s .idle unready).nextIn.rst = false ∧
      (s .idle unready).nextIn.busReady = false) ∧
    (∀ i ∈ [second, { second with rst := true, busReady := false }],
      (s .idle i).nextIn.otherWrite = none ∧ ((s .idle i).nextIn.rst = false → (s .idle i).nextIn.busReady = true) ∧
      (s .idle i).nextIn.otherRequest ≠ none) ∧
    ∀ i ∈ [unready, second],
      (s .idle i).cfg.masks.Ok ∧ (s .hSetup i).busWdata = some (encodeBus (s .hSetup i).cfg.masks 0x4#4 .data false) ∧
      (s .hEnHi i).busWdata = some (encodeBus (s .hEnHi i).cfg.masks 0x4#4 .data true) := by decide

end Sys2Proof.Tests
end

/-! ## The state and its outputs (10_state.md): the phases, the derived flags, the pins, the state after reset, the fault flag, what no step
changes, the latches of an idle NT4, and the invariant. -/

namespace Sys2Proof.Machine

/-! ### The phases and the derived flags (10_state.md R12, R13, R18) -/

theorem Phase.num_le_thirteen (p : Phase) : p.num ≤ 13 := by cases p <;> decide

theorem Phase.inTransfer_iff_num (p : Phase) : p.inTransfer = true ↔ 1 ≤ p.num ∧ p.num ≤ 12 := by
  simp [Phase.inTransfer]

@[simp] theorem Phase.hSetup_isWait : Phase.hSetup.isWait = false := rfl

/-- Settles O9: in a transfer the write and the wait phases are told apart by `step`, and by the parity of `PH`. -/
theorem phaseDecodesToNibbleAndStep : Obligations.PhaseDecodesToNibbleAndStep := by
  intro p hlo hhi
  have ht : p.inTransfer = true := p.inTransfer_iff_num.mpr ⟨hlo, hhi⟩
  refine ⟨rfl, rfl, ?_, ?_, ?_, ?_⟩
  · simp [Phase.isWrite, ht, or_assoc]
  · simp [Phase.isWait, ht, or_assoc]
  · rw [p.isWrite_iff_num]; simp only [List.mem_cons, List.not_mem_nil, or_false]; omega
  · rw [p.isWait_iff_num]; simp only [List.mem_cons, List.not_mem_nil, or_false]; omega

theorem State.ready_eq_decide (s : State) : s.ready = decide (s.ph.num = 0) := rfl

theorem State.busy_eq_decide (s : State) : s.busy = decide (1 ≤ s.ph.num ∧ s.ph.num ≤ 12) := by
  simp [State.busy, Phase.inTransfer]

theorem State.faulted_eq_decide (s : State) : s.faulted = decide (s.ph.num = 13) := rfl

/-- Settles O10: the three flags split the numbers 0 to 13 among them. -/
theorem exactlyOneDerivedFlag : Obligations.ExactlyOneDerivedFlag := by
  intro s
  refine ⟨s.ready_eq_decide, s.busy_eq_decide, s.faulted_eq_decide, ?_⟩
  rw [s.ready_eq_decide, s.busy_eq_decide, s.faulted_eq_decide]
  have hle := s.ph.num_le_thirteen
  obtain h | ⟨h1, h2⟩ | h : s.ph.num = 0 ∨ (1 ≤ s.ph.num ∧ s.ph.num ≤ 12) ∨ s.ph.num = 13 := by omega
  · simp [h]
  · have h0 : s.ph.num ≠ 0 := by omega
    have h13 : s.ph.num ≠ 13 := by omega
    simp [h0, h1, h2, h13]
  · simp [h]

/-! ### The pins of a bus byte (10_state.md R23) -/

/-- The lines of every bus byte under the listed masks. -/
theorem pinsOf_encodeBus_of_mem : ∀ m ∈ Masks.admitted, ∀ d : Nibble, ∀ r ∈ [Mode.command, .data], ∀ en : Bool,
    pinsOf m (encodeBus m d r en) =
      { db := d, backlight := true, enable := en, readWrite := false, rs := decide (r = .data) } := by decide +kernel

/-- Settles O55: the admitted masks are the listed ones. -/
theorem pinsOfBusByte : Obligations.PinsOfBusByte :=
  fun m hm d r en => pinsOf_encodeBus_of_mem m hm.mem_admitted d r (Mode.mem_both r) en

theorem lineHigh_eq_false_iff (mask b : Byte) : lineHigh mask b = false ↔ b &&& mask = 0#8 := by simp [lineHigh]

theorem lineHigh_eq_true_iff (mask b : Byte) : lineHigh mask b = true ↔ b &&& mask ≠ 0#8 := by simp [lineHigh]

/-- Every byte of the two classes is one NT4 can emit (30_encoding.md R57). -/
theorem emittable_encodeBus {m : Masks} (hm : m.Ok) (d : Nibble) (r : Mode) (en : Bool) : Emittable m (encodeBus m d r en) := by
  have h := pinsOfBusByte m hm d r en
  exact ⟨(lineHigh_eq_true_iff _ _).mp (congrArg Pins.backlight h), (lineHigh_eq_false_iff _ _).mp (congrArg Pins.readWrite h)⟩

theorem emittable_busData {m : Masks} (hm : m.Ok) (v : Byte) (md : Mode) (p : Phase) : Emittable m (busData m v md p) := by
  rw [busData_eq_encodeBus hm]; exact emittable_encodeBus hm _ _ _

/-! ### The state after reset (10_state.md R27) -/

/-- Settles O12: each part is a field of the state after reset, or a function of `PH` = 0. -/
theorem resetLeavesIdle : Obligations.ResetLeavesIdle :=
  fun _ => ⟨rfl, rfl, rfl, rfl, rfl, rfl, rfl, rfl, rfl, rfl, rfl⟩

/-! ### The fault flag (10_state.md R16) -/

/-- Outside the fault state one event leads there: the failed write. -/
theorem tick_ph_eq_fault_iff {i : TickIn} {s : State} (hs : s.ph ≠ .fault) :
    (tick i s).ph = .fault ↔ i.rst = false ∧ s.ph.isWrite = true ∧ i.busAck = true ∧ i.busErr = true := by
  rcases tick_cases i s with ⟨hr, h⟩ | ⟨-, hp, -⟩ | ⟨-, hp, -, h⟩ | ⟨-, hp, -, h⟩ | ⟨-, hw, -, he, h⟩ | ⟨hr, hw, ha, he, h⟩ |
    ⟨-, hw, ha, h⟩ | ⟨-, hw, -, h⟩ | ⟨-, hw, -, h⟩
  · simp [h, hr]
  · exact absurd hp hs
  · simp [h, hp]
  · simp [h, hp]
  · simp [h, he, Phase.next_ne_fault _ hs]
  · simp [h, hr, hw, ha, he]
  · simp [h, ha, hs]
  · simp [h, Phase.isWait_not_isWrite hw, hs]
  · simp [h, Phase.isWait_not_isWrite hw, Phase.next_ne_fault _ hs]

theorem State.faulted_eq_false_iff (s : State) : s.faulted = false ↔ s.ph ≠ .fault := by
  rw [← Bool.not_eq_true, s.faulted_iff]

/-- Settles O17: `tick_ph_eq_fault_iff` outside the fault state; in it a tick is reset or clears `DONE`. -/
theorem faultFlagSetAndCleared : Obligations.FaultFlagSetAndCleared := by
  refine ⟨fun s => ⟨rfl, rfl⟩, fun i s hs => ?_, fun i s hs => ?_⟩
  · rw [State.faulted_iff]
    exact tick_ph_eq_fault_iff (s.faulted_eq_false_iff.mp hs)
  · have hp := s.faulted_iff.mp hs
    have hout : s.busWr = false ∧ s.ready = false := by simp [State.busWr, State.ready, hp, Phase.num]
    cases hr : i.rst
    · simp [tick_of_fault hr hp, State.faulted_eq_false_iff, hp, hout]
    · simp [tick_of_rst hr, State.faulted_eq_false_iff, hout]

/-! ### What no step changes (10_state.md R19, R25) -/

/-- `t` has the configuration of `s` and at least its history. -/
structure KeepsHistory (s t : State) : Prop where
  cfg       : t.cfg = s.cfg
  trace     : s.trace <+: t.trace
  delivered : s.rx.delivered <+: t.rx.delivered
  draws     : s.draws ≤ t.draws

theorem KeepsHistory.refl (s : State) : KeepsHistory s s :=
  ⟨rfl, List.prefix_rfl, List.prefix_rfl, le_rfl⟩

theorem KeepsHistory.trans {s t u : State} (h : KeepsHistory s t) (k : KeepsHistory t u) : KeepsHistory s u :=
  ⟨k.cfg.trans h.cfg, h.trace.trans k.trace, h.delivered.trans k.delivered, h.draws.trans k.draws⟩

/-- Only an answered write adds to the trace, only an `ok` one is seen by the receiver. -/
theorem tick_keepsHistory (i : TickIn) (s : State) : KeepsHistory s (tick i s) := by
  rcases tick_cases i s with ⟨-, h⟩ | ⟨-, -, h⟩ | ⟨-, -, -, h⟩ | ⟨-, -, -, h⟩ | ⟨-, -, -, -, h⟩ | ⟨-, -, -, -, h⟩ |
    ⟨-, -, -, h⟩ | ⟨-, -, -, h⟩ | ⟨-, -, -, h⟩ <;> rw [h]
  · exact ⟨rfl, List.prefix_rfl, List.prefix_rfl, Nat.le_succ _⟩
  · exact ⟨rfl, List.prefix_rfl, List.prefix_rfl, le_rfl⟩
  · exact ⟨rfl, List.prefix_rfl, List.prefix_rfl, le_rfl⟩
  · exact ⟨rfl, List.prefix_rfl, List.prefix_rfl, le_rfl⟩
  · exact ⟨rfl, List.prefix_append _ _, receive_delivered _ _ _, le_rfl⟩
  · exact ⟨rfl, List.prefix_append _ _, List.prefix_rfl, Nat.le_succ _⟩
  · exact ⟨rfl, List.prefix_rfl, List.prefix_rfl, le_rfl⟩
  · exact ⟨rfl, List.prefix_rfl, List.prefix_rfl, le_rfl⟩
  · exact ⟨rfl, List.prefix_rfl, List.prefix_rfl, le_rfl⟩

/-- The coming inputs are no part of the history. -/
theorem KeepsHistory.withInputs {s t : State} (h : KeepsHistory s t) (is : List TickIn) : KeepsHistory s (t.withInputs is) :=
  ⟨h.cfg, h.trace, h.delivered, h.draws⟩

theorem step_keepsHistory {s t : State} (h : step s = .next t) : KeepsHistory s t :=
  step_induct (P := KeepsHistory s) (fun i u rest hu => (hu.trans (tick_keepsHistory i u)).withInputs rest) h (KeepsHistory.refl s)

/-- A step uses up coming inputs from the front. -/
theorem step_inputs_suffix {s t : State} (h : step s = .next t) : t.inputs <:+ s.inputs := by
  rcases step_cases h with rfl | ⟨rfl, -⟩
  · exact List.tail_suffix _
  · exact (runTransfer_inputs _ _ s.advance_inputs).trans (List.tail_suffix _)

/-- Settles O45: each tick keeps the history, hence each step, and a step only uses up inputs. -/
theorem stepOnlyExtendsHistory : Obligations.StepOnlyExtendsHistory := by
  intro s t h
  obtain ⟨hcfg, htrace, hdelivered, hdraws⟩ := step_keepsHistory h
  exact ⟨hcfg, htrace, hdelivered, hdraws, step_inputs_suffix h⟩

/-! ### The latches of an idle NT4 (10_state.md R10, R15) -/

/-- `t` is `s` but for operand latches read only during a transfer and a counter read only in a wait phase. -/
structure SameWhereRead (s t : State) : Prop where
  rest    : t = { s with val := t.val, mode := t.mode, cnt := t.cnt }
  latches : s.ph.inTransfer = true → t.val = s.val ∧ t.mode = s.mode
  counter : s.ph.isWait = true → t.cnt = s.cnt

theorem SameWhereRead.refl (s : State) : SameWhereRead s s := ⟨rfl, fun _ => ⟨rfl, rfl⟩, fun _ => rfl⟩

/-- In a wait phase all three are read. -/
theorem SameWhereRead.eq_of_isWait {s t : State} (h : SameWhereRead s t) (hw : s.ph.isWait = true) : t = s := by
  obtain ⟨hv, hm⟩ := h.latches (Phase.isWait_inTransfer hw)
  rw [h.rest, hv, hm, h.counter hw]

theorem SameWhereRead.ph_eq {s t : State} (h : SameWhereRead s t) : t.ph = s.ph := by rw [h.rest]

/-- A tick reads the latches in a write phase, where an `ok` answer sets the counter, and the counter in a wait phase; an acceptance sets
the latches. -/
theorem SameWhereRead.after_tick {s t : State} (h : SameWhereRead s t) (i : TickIn) : SameWhereRead (tick i s) (tick i t) := by
  have hph := h.ph_eq
  obtain ⟨v, m, c, rfl⟩ : ∃ v m c, t = { s with val := v, mode := m, cnt := c } := ⟨_, _, _, h.rest⟩
  cases hr : i.rst
  case true => rw [tick_of_rst hr, tick_of_rst hr]; exact SameWhereRead.refl s.resetTick
  rcases s.ph.kinds with hp | hp | hp | hp
  · rw [tick_of_idle hr hp, tick_of_idle hr (hph.trans hp)]
    cases hv : i.reqValid <;> simp only [tickIdle, hv]
    · exact ⟨rfl, fun hb => absurd hb (by simp [hp]), fun hw => absurd hw (by simp [hp])⟩
    · exact ⟨rfl, fun _ => ⟨rfl, rfl⟩, fun hw => absurd hw (by simp)⟩
  · obtain ⟨rfl, rfl⟩ := h.latches (Phase.isWrite_inTransfer hp)
    rw [tick_of_write hr hp, tick_of_write hr (by rw [hph]; exact hp)]
    have hwait := Phase.isWrite_not_isWait hp
    cases ha : i.busAck
    · simp only [tickWrite, ha]
      exact ⟨rfl, fun _ => ⟨rfl, rfl⟩, fun hw => absurd hw (by simp [hwait])⟩
    · cases he : i.busErr <;> simp only [tickWrite, ha, he]
      · exact SameWhereRead.refl _
      · exact ⟨rfl, fun _ => ⟨rfl, rfl⟩, fun hw => absurd hw (by simp)⟩
  · rw [h.eq_of_isWait hp]; exact SameWhereRead.refl _
  · rw [tick_of_fault hr hp, tick_of_fault hr (hph.trans hp)]
    exact ⟨rfl, fun hb => absurd hb (by simp [hp]), fun hw => absurd hw (by simp [hp])⟩

/-- Two such states show the same outputs. -/
theorem SameWhereRead.outputs_eq {s t : State} (h : SameWhereRead s t) : t.outputs = s.outputs := by
  have hdata : t.busWdata = s.busWdata := by
    cases hw : s.ph.isWrite
    · simp [State.busWdata, busByte, h.ph_eq, hw]
    · obtain ⟨hv, hm⟩ := h.latches (Phase.isWrite_inTransfer hw)
      rw [h.rest, State.busWdata, hv, hm]; rfl
  rw [State.outputs, hdata, h.rest]; rfl

/-- And the same event at the next tick. -/
theorem SameWhereRead.tickLabel_eq {s t : State} (h : SameWhereRead s t) (i : TickIn) : tickLabel i t = tickLabel i s := by
  cases hw : s.ph.isWait
  · rw [h.rest]; simp only [tickLabel, hw]; rfl
  · rw [h.eq_of_isWait hw]

theorem SameWhereRead.after_ticks {s t : State} (h : SameWhereRead s t) (is : List TickIn) :
    SameWhereRead (ticks is s) (ticks is t) := by
  induction is generalizing s t with
  | nil => exact h
  | cons i is ih => exact ih (h.after_tick i)

theorem SameWhereRead.tickLabels_eq {s t : State} (h : SameWhereRead s t) (is : List TickIn) :
    tickLabels is t = tickLabels is s := by
  induction is generalizing s t with
  | nil => rfl
  | cons i is ih => rw [tickLabels, tickLabels, h.tickLabel_eq, ih (h.after_tick i)]

/-- Settles O27: idle states that differ only there are `SameWhereRead`, which every run keeps. -/
theorem idleLatchesAreUnread : Obligations.IdleLatchesAreUnread := by
  intro is s v m c hnum s'
  have hp := s.ph.num_eq_zero.mp hnum
  have h : SameWhereRead s s' := ⟨rfl, fun hb => absurd hb (by simp [hp]), fun hw => absurd hw (by simp [hp])⟩
  have hend := h.after_ticks is
  exact ⟨hend.outputs_eq, hend.ph_eq, by rw [hend.rest], by rw [hend.rest], by rw [hend.rest], h.tickLabels_eq is⟩

/-! ### The invariant -/

/-- `WAIT_TICKS` fits in `CNT_W` bits (00_scope.md R9). -/
theorem waitTicks_lt_two_pow_cntW (c : Config) : c.waitTicks < 2 ^ c.cntW := Nat.lt_log2_self

/-- Settles O43: after reset `CNT` is 0, the trace is empty, and no transfer is in progress. -/
theorem resetMeetsInvariant : Obligations.ResetMeetsInvariant := fun c =>
  { cntFits := Nat.two_pow_pos _
    cntBound := fun _ => Nat.zero_le _
    doneIdle := fun _ => rfl
    traceAddr := by simp [State.resetOf]
    traceBytes := by simp [State.resetOf]
    faultCause := fun h => absurd h (by simp [State.resetOf])
    latchHolds := rfl
    traceLast := fun h => absurd h (by simp [State.busy, State.resetOf])
    receiverLine := rfl }

/-- The coming inputs are no part of the invariant. -/
theorem Inv.withInputs {s : State} (h : Inv s) (is : List TickIn) : Inv (s.withInputs is) :=
  ⟨h.cntFits, h.cntBound, h.doneIdle, h.traceAddr, h.traceBytes, h.faultCause, h.latchHolds, h.traceLast, h.receiverLine⟩

theorem Inv.clearDone {s : State} (h : Inv s) : Inv s.clearDone :=
  { h with doneIdle := fun hd => absurd hd (by simp) }

theorem Inv.resetTick {s : State} (h : Inv s) : Inv s.resetTick :=
  { cntFits := Nat.mod_lt _ (Nat.two_pow_pos _)
    cntBound := fun hw => absurd hw (by simp)
    doneIdle := fun _ => rfl
    traceAddr := h.traceAddr
    traceBytes := h.traceBytes
    faultCause := fun hp => absurd hp (by simp)
    latchHolds := rfl
    traceLast := fun hb => absurd hb (by simp [State.busy])
    receiverLine := h.receiverLine }

theorem Inv.accept {s : State} (h : Inv s) (m : Mode) (v : Byte) : Inv (s.accept m v) :=
  { cntFits := h.cntFits
    cntBound := fun hw => absurd hw (by simp)
    doneIdle := fun hd => absurd hd (by simp)
    traceAddr := h.traceAddr
    traceBytes := h.traceBytes
    faultCause := fun hp => absurd hp (by simp)
    latchHolds := rfl
    traceLast := fun _ hp => absurd rfl hp
    receiverLine := h.receiverLine }

/-- A traced write of an emittable byte keeps the two clauses on the whole trace. -/
theorem Inv.trace_append {s : State} (h : Inv s) {e : Txn} (ha : e.addr = busAddr) (he : Emittable s.cfg.masks e.data) :
    (∀ t ∈ s.trace ++ [e], t.addr = busAddr) ∧ ∀ t ∈ s.trace ++ [e], Emittable s.cfg.masks t.data := by
  simp only [List.forall_mem_append, List.forall_mem_singleton]
  exact ⟨⟨h.traceAddr, ha⟩, h.traceBytes, he⟩

theorem Inv.takeTransmissionFailure {s : State} (h : Inv s) {v : Byte} (hv : Emittable s.cfg.masks v) :
    Inv (s.takeTransmissionFailure v) :=
  { cntFits := h.cntFits
    cntBound := fun hw => absurd hw (by simp)
    doneIdle := fun hd => absurd hd (by simp)
    traceAddr := (h.trace_append (e := errTxn v) rfl hv).1
    traceBytes := (h.trace_append (e := errTxn v) rfl hv).2
    faultCause := fun _ => ⟨v, by simp⟩
    latchHolds := rfl
    traceLast := fun hb => absurd hb (by simp [State.busy])
    receiverLine := by simp [h.receiverLine] }

/-- After a write phase comes the wait phase whose last written byte is that of the write. -/
theorem lastWritten_enterWait {s : State} (hw : s.ph.isWrite = true) :
    lastWritten s.enterWait = busData s.cfg.masks s.val s.mode s.ph := by
  cases hp : s.ph
  case hSetup | hEnHi | hEnLo | lSetup | lEnHi | lEnLo => simp [lastWritten, hp, Phase.next]
  all_goals exact absurd hw (by rw [hp]; decide)

/-- The end of a wait phase leaves the byte last written as it is; outside a transfer it is what `XP` holds. -/
theorem lastWritten_wait_next {s : State} (hw : s.ph.isWait = true) (hx : s.xp = lastWritten s) (d : Bool) :
    s.xp = lastWritten { s with ph := s.ph.next, done := d } := by
  cases hp : s.ph
  case lWait3 => simp [lastWritten, Phase.next]
  case hWait1 | hWait2 | hWait3 | lWait1 | lWait2 => simpa [lastWritten, hp, Phase.next] using hx
  all_goals exact absurd hw (by rw [hp]; decide)

theorem Inv.writeOk {s : State} (h : Inv s) (hw : s.ph.isWrite = true)
    (hv : Emittable s.cfg.masks (busData s.cfg.masks s.val s.mode s.ph)) :
    Inv (s.busOk (busData s.cfg.masks s.val s.mode s.ph)).enterWait := by
  have hwait := Phase.isWrite_next hw
  exact
  { cntFits := waitTicks_lt_two_pow_cntW _
    cntBound := fun _ => le_rfl
    doneIdle := fun hd => absurd hd (by simp)
    traceAddr := (h.trace_append (e := okTxn _) rfl hv).1
    traceBytes := (h.trace_append (e := okTxn _) rfl hv).2
    faultCause := fun hp => absurd hwait (by simp only [State.enterWait_ph, State.busOk_ph] at hp; simp [hp])
    latchHolds := (lastWritten_enterWait (s := s.busOk (busData s.cfg.masks s.val s.mode s.ph)) hw).symm
    traceLast := fun _ _ => by simp
    receiverLine := by simp }

theorem Inv.countDown {s : State} (h : Inv s) : Inv { s with cnt := s.cnt - 1, done := false } :=
  { h with
    cntFits := (Nat.sub_le _ _).trans_lt h.cntFits
    cntBound := fun hw => (Nat.sub_le _ _).trans (h.cntBound hw)
    doneIdle := fun hd => absurd hd (by simp) }

/-- A wait phase is left for `IDLE` from the last one only. -/
theorem Phase.isWait_next {p : Phase} (h : p.isWait = true) : p.next = .idle ∨ p.next.isWrite = true := by
  revert h; cases p <;> decide

theorem Inv.waitEnd {s : State} (h : Inv s) (hw : s.ph.isWait = true) :
    Inv { s with ph := s.ph.next, done := s.ph == .lWait3 } := by
  have hnext := Phase.isWait_next hw
  exact
  { h with
    cntBound := fun k => by
      rcases hnext with hn | hn
      · simp [hn] at k
      · simp [Phase.isWrite_not_isWait hn] at k
    doneIdle := fun hd => by simp [beq_iff_eq.mp hd, Phase.next]
    faultCause := fun hp => by
      rcases hnext with hn | hn <;> simp [show s.ph.next = .fault from hp] at hn
    latchHolds := lastWritten_wait_next hw h.latchHolds _
    traceLast := fun _ _ => h.traceLast (Phase.isWait_inTransfer hw) (fun hp => by simp [hp] at hw) }

/-- Each of the things a tick can do keeps the invariant. -/
theorem Inv.after_tick {s : State} (h : Inv s) (hm : s.cfg.masks.Ok) (i : TickIn) : Inv (tick i s) := by
  have hv := emittable_busData hm s.val s.mode s.ph
  rcases tick_cases i s with ⟨-, k⟩ | ⟨-, -, k⟩ | ⟨-, -, -, k⟩ | ⟨-, -, -, k⟩ | ⟨-, hw, -, -, k⟩ | ⟨-, -, -, -, k⟩ |
    ⟨-, -, -, k⟩ | ⟨-, -, -, k⟩ | ⟨-, hw, -, k⟩ <;> rw [k]
  · exact h.resetTick
  · exact h.clearDone
  · exact h.accept _ _
  · exact h.clearDone
  · exact h.writeOk hw hv
  · exact h.takeTransmissionFailure hv
  · exact h.clearDone
  · exact h.countDown
  · exact h.waitEnd hw

/-- Settles O44: every tick keeps the invariant under admitted masks, and a step is ticks. -/
theorem stepKeepsInvariant : Obligations.StepKeepsInvariant := by
  intro s t hm hinv hstep
  have hkeep : ∀ i u rest, (u.cfg.masks.Ok ∧ Inv u) →
      (((tick i u).withInputs rest).cfg.masks.Ok ∧ Inv ((tick i u).withInputs rest)) :=
    fun i u rest ⟨hu, h⟩ => ⟨by simpa using hu, (h.after_tick hu i).withInputs rest⟩
  exact (step_induct (P := fun u => u.cfg.masks.Ok ∧ Inv u) hkeep hstep ⟨hm, hinv⟩).2

end Sys2Proof.Machine

/-! ## Bus address 0x27 and its other agents (20_memory.md R45): when a bus byte runs, when `bus_wdata` may be read, and a tick with another
agent's write. -/

namespace Sys2Proof.Machine

/-! ### The byte on the bus (41_pulse_sequencer.md R99) -/

theorem State.busWdata_of_busWr {s : State} (h : s.busWr = true) : s.busWdata = some (busData s.cfg.masks s.val s.mode s.ph) :=
  if_pos h

theorem State.busWdata_of_not_busWr {s : State} (h : s.busWr = false) : s.busWdata = none :=
  if_neg (Bool.eq_false_iff.mp h)

theorem State.readBusWdata_of_busWr {s : State} (h : s.busWr = true) :
    s.readBusWdata = .ok (busData s.cfg.masks s.val s.mode s.ph) := by
  rw [State.readBusWdata, State.busWdata_of_busWr h]

theorem State.readBusWdata_of_not_busWr {s : State} (h : s.busWr = false) : s.readBusWdata = .error .unspecifiedBusData := by
  rw [State.readBusWdata, State.busWdata_of_not_busWr h]

theorem State.readBusWdata_eq_error_iff (s : State) : s.readBusWdata = .error .unspecifiedBusData ↔ s.busWr = false := by
  refine ⟨fun he => ?_, State.readBusWdata_of_not_busWr⟩
  cases hw : s.busWr
  · rfl
  · rw [State.readBusWdata_of_busWr hw] at he
    cases he

/-! ### When a bus byte is refused (20_memory.md R45) -/

theorem exec_busbE0 (d : Nibble) (r : Mode) (s : State) : exec (.busbE0 d r) s = s.busWrite (encodeBus s.cfg.masks d r false) := rfl

theorem exec_busbE1 (d : Nibble) (r : Mode) (s : State) : exec (.busbE1 d r) s = s.busWrite (encodeBus s.cfg.masks d r true) := rfl

theorem State.busWrite_of_requested {s : State} {b : Byte} (h : s.busWdata = some b) : s.busWrite b = s.underPremises s.advance :=
  if_pos h

/-- A byte NT4 does not request is another agent's. -/
theorem State.busWrite_of_not_requested {s : State} {b : Byte} (h : s.busWdata ≠ some b) : s.busWrite b = .refused .busNotExclusive :=
  if_neg h

/-- Settles O38: a bus byte runs only as the byte NT4 requests, and NT4 requests one exactly while `bus_wr` = 1. -/
theorem busByteStops : Obligations.BusByteStops := by
  intro s d r
  refine ⟨fun h => ?_, fun h => ?_, s.readBusWdata_eq_error_iff.symm, State.readBusWdata_of_busWr⟩
  · rw [exec_busbE0, State.busWrite_of_not_requested h]
  · rw [exec_busbE1, State.busWrite_of_not_requested h]

/-! ### A next tick that violates a launch premise -/

theorem State.advance_refused {s : State} {x : Refusal} (h : s.nextIn.violation = some x) : s.underPremises s.advance = .refused x :=
  State.underPremises_refused h (by rw [State.advance_inputs])

/-- A request uses up the next tick, whether or not it is accepted. -/
theorem exec_requestInstr_refused {s : State} {x : Refusal} (h : s.nextIn.violation = some x) (md : Mode) (v : Byte) :
    exec (requestInstr md v) s = .refused x := by
  rw [exec_requestInstr]
  exact State.underPremises_refused h (s.sendRequest_inputs md v).length_le

theorem State.busWrite_refused {s : State} {x : Refusal} {b : Byte} (h : s.nextIn.violation = some x) (hb : s.busWdata = some b) :
    s.busWrite b = .refused x := by
  rw [State.busWrite_of_requested hb, State.advance_refused h]

/-! ### What a step fetches under admitted masks -/

/-- A byte NT4 can emit is of one of the two classes (30_encoding.md R55, R57). -/
theorem decodeBus_of_emittable {m : Masks} {b : Byte} (h : Emittable m b) : ∃ i, decodeBus m b = .ok i := by
  obtain ⟨hbl, hrw⟩ := h
  by_cases he : b &&& m.en = 0#8
  · exact ⟨_, by rw [decodeBus, if_neg hbl, if_neg (not_not_intro hrw), if_pos he]⟩
  · exact ⟨_, by rw [decodeBus, if_neg hbl, if_neg (not_not_intro hrw), if_neg he]⟩

/-- A step finds no instruction or one it can decode: every byte NT4 requests is of a class. -/
theorem State.fetch_hold_or_instr {s : State} (hm : s.cfg.masks.Ok) : s.fetch = .hold ∨ ∃ i, s.fetch = .instr i := by
  cases hr : s.nextIn.rst
  case true => exact .inl (by simp [State.fetch, hr])
  case false =>
    cases hd : s.ready
    case true =>
      cases hv : s.nextIn.reqValid
      · exact .inl (by simp [State.fetch, hr, hd, hv])
      · exact .inr ⟨_, State.fetch_request hr (s.ready_iff.mp hd) hv⟩
    case false =>
      cases hw : s.busWr
      · exact .inl (by simp [State.fetch, hr, hd, State.busWdata_of_not_busWr hw])
      · obtain ⟨i, hi⟩ := decodeBus_of_emittable (emittable_busData hm s.val s.mode s.ph)
        exact .inr ⟨i, by simp [State.fetch, hr, hd, State.busWdata_of_busWr hw, decode, hi]⟩

/-! ### Another agent's write (20_memory.md R45) -/

/-- It is the first premise looked at, so its name is the one given. -/
theorem TickIn.violation_of_otherWrite {i : TickIn} (h : i.otherWrite ≠ none) : i.violation = some .busNotExclusive :=
  if_pos (Option.isSome_iff_ne_none.mpr h)

/-- A bus byte is refused by the same name whether NT4 requests it or not. -/
theorem State.busWrite_of_otherWrite {s : State} (h : s.nextIn.otherWrite ≠ none) (b : Byte) :
    s.busWrite b = .refused .busNotExclusive := by
  by_cases hb : s.busWdata = some b
  · exact State.busWrite_refused (TickIn.violation_of_otherWrite h) hb
  · exact State.busWrite_of_not_requested hb

theorem exec_of_otherWrite {s : State} (h : s.nextIn.otherWrite ≠ none) (i : Instr) : exec i s = .refused .busNotExclusive := by
  have hv := TickIn.violation_of_otherWrite h
  cases i with
  | sendc v => exact exec_requestInstr_refused hv .command v
  | sendd v => exact exec_requestInstr_refused hv .data v
  | busbE0 d r => rw [exec_busbE0, State.busWrite_of_otherWrite h]
  | busbE1 d r => rw [exec_busbE1, State.busWrite_of_otherWrite h]

/-- Settles O56: under admitted masks a step is one tick or an instruction, and both use up the tick of the other agent's write. -/
theorem foreignWriteIsRefused : Obligations.ForeignWriteIsRefused := by
  intro s h
  refine ⟨exec_of_otherWrite h, fun hm => ?_⟩
  rcases State.fetch_hold_or_instr hm with hf | ⟨i, hf⟩ <;> simp only [step, hf]
  · exact State.advance_refused (TickIn.violation_of_otherWrite h)
  · exact exec_of_otherWrite h i

end Sys2Proof.Machine


/-! ## Encoding (30_encoding.md): the round trips of decoder and encoder, the bus byte of each phase, the bytes NT4 can emit, and which
instruction a step runs. -/

namespace Sys2Proof

/-! ### Request words (30_encoding.md R50) -/

theorem bit_ofBool (c : Bool) : (Mode.ofBool c).bit = BitVec.ofBool c := by cases c <;> rfl

/-- Bit 8 of a request word and the byte below it are the whole word. -/
theorem encodeReq_of_bit8 (w : Req9) : encodeReq (Mode.ofBool (w.getLsbD 8)) (w.extractLsb' 0 8) = w := by
  have hw : w.extractLsb' 8 1 ++ w.extractLsb' 0 8 = w := by
    rw [BitVec.extractLsb'_append_extractLsb'_eq_extractLsb' (by rfl)]; simp
  have hbit : (Mode.ofBool (w.getLsbD 8)).bit = w.extractLsb' 8 1 := by
    rw [bit_ofBool]
    ext i hi
    obtain rfl : i = 0 := by omega
    simp
  rw [encodeReq, hbit, hw]

/-- Bit 8 alone tells the two requests apart (30_encoding.md R55). -/
theorem decodeReq_eq_requestInstr (w : Req9) :
    decodeReq w = requestInstr (Mode.ofBool (w.getLsbD 8)) (w.extractLsb' 0 8) := by
  unfold decodeReq
  cases w.getLsbD 8 <;> rfl

theorem encode_requestInstr (m : Masks) (md : Mode) (v : Byte) : encode m (requestInstr md v) = .req9 (encodeReq md v) := by
  cases md <;> rfl

/-! ### Bus bytes (30_encoding.md R51) -/

/-- The bus byte class by the level of the enable line (30_encoding.md R55). -/
def busInstr : Bool → Nibble → Mode → Instr
  | false => .busbE0
  | true => .busbE1

theorem encode_busInstr (m : Masks) (en : Bool) (d : Nibble) (r : Mode) :
    encode m (busInstr en d r) = .bus8 (encodeBus m d r en) := by
  cases en <;> rfl

end Sys2Proof

namespace Sys2Proof.Machine

theorem modeOf_eq_ofBool_lineHigh (m : Masks) (b : Byte) : m.modeOf b = Mode.ofBool (lineHigh m.rs b) := rfl

/-- A byte NT4 can emit is of the class its enable line gives, with its high nibble and the level of its RS line. -/
theorem decodeBus_eq_busInstr {m : Masks} {b : Byte} (h : Emittable m b) :
    decodeBus m b = .ok (busInstr (lineHigh m.en b) (b.extractLsb' 4 4) (m.modeOf b)) := by
  obtain ⟨hbl, hrw⟩ := h
  rw [decodeBus, if_neg hbl, if_neg (not_not_intro hrw)]
  cases he : lineHigh m.en b
  · rw [if_pos ((lineHigh_eq_false_iff _ _).mp he)]; rfl
  · rw [if_neg ((lineHigh_eq_true_iff _ _).mp he)]; rfl

/-- No other byte decodes (30_encoding.md R57). -/
theorem emittable_of_decodeBus {m : Masks} {b : Byte} {i : Instr} (h : decodeBus m b = .ok i) : Emittable m b := by
  unfold decodeBus at h
  split at h; · cases h
  rename_i hbl
  split at h; · cases h
  rename_i hrw
  exact ⟨hbl, not_not.mp hrw⟩

/-- The lines of an encoded bus byte are its fields. -/
theorem decodeBus_encodeBus {m : Masks} (hm : m.Ok) (d : Nibble) (r : Mode) (en : Bool) :
    decodeBus m (encodeBus m d r en) = .ok (busInstr en d r) := by
  have hpins := pinsOfBusByte m hm d r en
  have hd : (encodeBus m d r en).extractLsb' 4 4 = d := congrArg Pins.db hpins
  have hen : lineHigh m.en (encodeBus m d r en) = en := congrArg Pins.enable hpins
  have hrs : lineHigh m.rs (encodeBus m d r en) = decide (r = .data) := congrArg Pins.rs hpins
  have hr : m.modeOf (encodeBus m d r en) = r := by
    rw [modeOf_eq_ofBool_lineHigh, hrs]; cases r <;> rfl
  rw [decodeBus_eq_busInstr (emittable_encodeBus hm d r en), hd, hen, hr]

/-- Settles O2: a request's word decodes by bit 8, a bus byte by its lines. -/
theorem decodeEncodeRoundTrip : Obligations.DecodeEncodeRoundTrip := by
  intro m hm i
  cases i with
  | sendc v => simp only [encode, decode, decodeReq_encodeReq, requestInstr]
  | sendd v => simp only [encode, decode, decodeReq_encodeReq, requestInstr]
  | busbE0 d r => exact decodeBus_encodeBus hm d r false
  | busbE1 d r => exact decodeBus_encodeBus hm d r true

/-- Each flag of a byte is 0 or its whole mask, as an admitted mask is one bit. -/
theorem and_flag_eq_ite : ∀ k ∈ flagBits, ∀ b : Byte, b &&& k = if lineHigh k b then k else 0#8 := by decide +kernel

theorem mem_flagBits_of_mem_admitted : ∀ m ∈ Masks.admitted,
    m.rs ∈ flagBits ∧ m.rw ∈ flagBits ∧ m.en ∈ flagBits ∧ m.bl ∈ flagBits := by decide

/-- The four flag masks cover bits 3:0 (00_scope.md R8), so a byte is its high nibble and its four flags. -/
theorem eq_nibble_or_flags {m : Masks} (hm : m.Ok) (b : Byte) :
    b = (b.extractLsb' 4 4 ++ 0#4) ||| (b &&& m.rs ||| b &&& m.rw ||| b &&& m.en ||| b &&& m.bl) := by
  obtain ⟨-, -, hunion⟩ := hm
  rw [← hiByte_eq_append, hiByte, dataMask, ← BitVec.and_or_distrib_left, ← BitVec.and_or_distrib_left,
    ← BitVec.and_or_distrib_left, hunion, ← BitVec.and_or_distrib_left]
  exact (BitVec.and_allOnes).symm

theorem rsBit_modeOf (m : Masks) (b : Byte) : m.rsBit (m.modeOf b) = if lineHigh m.rs b then m.rs else 0#8 := by
  rw [modeOf_eq_ofBool_lineHigh]; cases lineHigh m.rs b <;> rfl

/-- A byte NT4 can emit is encoded by its own nibble, RS level and enable level. -/
theorem encodeBus_of_emittable {m : Masks} (hm : m.Ok) {b : Byte} (h : Emittable m b) :
    encodeBus m (b.extractLsb' 4 4) (m.modeOf b) (lineHigh m.en b) = b := by
  obtain ⟨hbl, hrw⟩ := h
  obtain ⟨hrsMem, -, henMem, hblMem⟩ := mem_flagBits_of_mem_admitted m hm.mem_admitted
  conv_rhs => rw [eq_nibble_or_flags hm b]
  rw [and_flag_eq_ite _ hrsMem, hrw, and_flag_eq_ite _ henMem, and_flag_eq_ite _ hblMem,
    (lineHigh_eq_true_iff _ _).mpr hbl, encodeBus, rsBit_modeOf, if_pos rfl, BitVec.or_zero]
  ac_rfl

/-- Settles O3: the decoded fields are all the bits of a request word, and of a bus byte NT4 can emit, the only kind that decodes. -/
theorem encodeDecodeRoundTrip : Obligations.EncodeDecodeRoundTrip := by
  intro m hm w i h
  cases w with
  | req9 w =>
    injection h with h
    rw [← h, decodeReq_eq_requestInstr, encode_requestInstr, encodeReq_of_bit8]
  | bus8 b =>
    have hb : Emittable m b := emittable_of_decodeBus h
    rw [decode, decodeBus_eq_busInstr hb] at h
    injection h with h
    rw [← h, encode_busInstr, encodeBus_of_emittable hm hb]

/-! ### The bus byte of each phase (30_encoding.md R54) -/

theorem busByte_of_isWrite {p : Phase} (h : p.isWrite = true) (m : Masks) (v : Byte) (md : Mode) :
    busByte m v md p = some (busData m v md p) := if_pos h

theorem busByte_of_not_isWrite {p : Phase} (h : p.isWrite = false) (m : Masks) (v : Byte) (md : Mode) :
    busByte m v md p = none := if_neg (Bool.eq_false_iff.mp h)

theorem Phase.nib_eq_zero_iff (p : Phase) : p.nib = 0 ↔ p.num ≤ 6 := by unfold Phase.nib; omega

/-- The enable-high write phases. -/
theorem Phase.of_enableHigh {p : Phase} (h : p.num ∈ [3, 9]) : p.isWrite = true ∧ p.microStep = 2 := by
  revert h; cases p <;> decide

/-- The setup and the enable-low write phases. -/
theorem Phase.of_enableLow {p : Phase} (h : p.num ∈ [1, 5, 7, 11]) : p.isWrite = true ∧ p.microStep ≠ 2 := by
  revert h; cases p <;> decide

/-- The phases that request no write. -/
theorem Phase.isWrite_eq_false {p : Phase} (h : p.num ∈ [0, 2, 4, 6, 8, 10, 12, 13]) : p.isWrite = false := by
  revert h; cases p <;> decide

theorem baseByte_nib (m : Masks) (v : Byte) (md : Mode) (p : Phase) :
    baseByte m v md p.nib = (if p.num ≤ 6 then v &&& 0xF0#8 else (v <<< 4) &&& 0xF0#8) ||| modeFlags m md := by
  by_cases h : p.num ≤ 6
  · rw [baseByte, if_pos (p.nib_eq_zero_iff.mpr h), if_pos h]; rfl
  · rw [baseByte, if_neg (h ∘ p.nib_eq_zero_iff.mp), if_neg h]; rfl

theorem baseByte_and_not_en {m : Masks} (hm : m.Ok) (v : Byte) (md : Mode) (nib : Nat) :
    baseByte m v md nib &&& ~~~m.en = baseByte m v md nib := by
  unfold baseByte
  split
  · exact hiSetup_and_not_en hm v md
  · exact loSetup_and_not_en hm v md

/-- The byte of a write phase by its class: nibble, mode and enable level (30_encoding.md R55). -/
theorem busByte_eq_encodeBus {m : Masks} (hm : m.Ok) (v : Byte) (md : Mode) {p : Phase} (h : p.isWrite = true) :
    busByte m v md p =
      some (encodeBus m (if p.nib = 0 then v.extractLsb' 4 4 else v.extractLsb' 0 4) md (decide (p.microStep = 2))) := by
  rw [busByte_of_isWrite h, busData_eq_encodeBus hm]

/-- The six bytes of a transfer, by their classes. -/
theorem map_busByte_writePhases {m : Masks} (hm : m.Ok) (h l : Nibble) (md : Mode) :
    [Phase.hSetup, .hEnHi, .hEnLo, .lSetup, .lEnHi, .lEnLo].map (busByte m (h ++ l) md) =
      [some (encodeBus m h md false), some (encodeBus m h md true), some (encodeBus m h md false),
        some (encodeBus m l md false), some (encodeBus m l md true), some (encodeBus m l md false)] := by
  have hhi : (h ++ l).extractLsb' 4 4 = h := BitVec.extractLsb'_append_eq_left
  have hlo : (h ++ l).extractLsb' 0 4 = l := BitVec.extractLsb'_append_eq_right
  have hbyte := fun p => busByte_eq_encodeBus hm (h ++ l) md (p := p)
  rw [hhi, hlo] at hbyte
  simp only [List.map_cons, List.map_nil]
  rw [hbyte .hSetup rfl, hbyte .hEnHi rfl, hbyte .hEnLo rfl, hbyte .lSetup rfl, hbyte .lEnHi rfl, hbyte .lEnLo rfl]
  rfl

/-- Bits 3:0 of the encoded bus byte under the default masks (30_encoding.md R54's table). -/
theorem encodeBus_default : ∀ (d : Nibble) (en : Bool),
    encodeBus Masks.default d .command en = d ++ (if en then 0xC#4 else 0x8#4) ∧
    encodeBus Masks.default d .data en = d ++ (if en then 0xD#4 else 0x9#4) := by decide

/-- Settles O5: the two kinds of write phase by `step`, and the table from the classes of the six bytes. -/
theorem busByteByPhase : Obligations.BusByteByPhase := by
  refine ⟨fun m hm v md p => ?_, fun h l => ?_, fun h l => ?_⟩
  · intro base
    have hbase : baseByte m v md p.nib = base := baseByte_nib m v md p
    refine ⟨fun hp => ?_, fun hp => ⟨?_, ?_⟩, fun hp => ?_⟩
    · obtain ⟨hw, hstep⟩ := Phase.of_enableHigh hp
      rw [busByte_of_isWrite hw, busData, if_pos hstep, hbase]
    · obtain ⟨hw, hstep⟩ := Phase.of_enableLow hp
      rw [busByte_of_isWrite hw, busData, if_neg hstep, hbase]
    · rw [← hbase, baseByte_and_not_en hm]
    · exact busByte_of_not_isWrite (Phase.isWrite_eq_false hp) m v md
  · rw [map_busByte_writePhases Masks.default_ok]; simp [encodeBus_default]
  · rw [map_busByte_writePhases Masks.default_ok]; simp [encodeBus_default]

theorem decodeBus_busByte {m : Masks} (hm : m.Ok) (v : Byte) (md : Mode) {p : Phase} (h : p.isWrite = true) :
    (busByte m v md p).map (decodeBus m) =
      some (.ok (busInstr (decide (p.microStep = 2)) (if p.nib = 0 then v.extractLsb' 4 4 else v.extractLsb' 0 4) md)) := by
  rw [busByte_eq_encodeBus hm v md h, Option.map_some, decodeBus_encodeBus hm]

/-- Settles O8: nibble and class of each write phase by its `nib` and `step`. -/
theorem busByteClassByPhase : Obligations.BusByteClassByPhase := by
  intro m hm v md
  have hclass := fun p => decodeBus_busByte hm v md (p := p)
  simp only [List.forall_mem_cons, List.not_mem_nil, false_imp_iff, implies_true, and_true]
  exact ⟨⟨hclass .hSetup rfl, hclass .hEnLo rfl⟩, ⟨hclass .lSetup rfl, hclass .lEnLo rfl⟩, hclass .hEnHi rfl, hclass .lEnHi rfl⟩

/-! ### The bytes NT4 can emit (30_encoding.md R57) -/

theorem emittable_default_iff : ∀ b : Byte, Emittable Masks.default b ↔ (b.getLsbD 3 = true ∧ b.getLsbD 1 = false) := by
  decide +kernel

theorem exists_busByte_iff_emittable {m : Masks} (hm : m.Ok) (b : Byte) :
    (∃ v md p, busByte m v md p = some b) ↔ Emittable m b := by
  constructor
  · rintro ⟨v, md, p, h⟩
    cases hw : p.isWrite
    · rw [busByte_of_not_isWrite hw] at h; cases h
    · rw [busByte_of_isWrite hw] at h
      injection h with h
      exact h ▸ emittable_busData hm v md p
  · intro h
    have henc := encodeBus_of_emittable hm h
    cases he : lineHigh m.en b <;> rw [he] at henc
    · exact ⟨b, m.modeOf b, .hSetup, (busByte_eq_encodeBus hm _ _ rfl).trans (congrArg some henc)⟩
    · exact ⟨b, m.modeOf b, .hEnHi, (busByte_eq_encodeBus hm _ _ rfl).trans (congrArg some henc)⟩

/-- A tick traces only the byte of its write phase. -/
theorem tick_trace_mem {i : TickIn} {s : State} {e : Txn} (he : e ∈ (tick i s).trace) :
    e ∈ s.trace ∨ e.data = busData s.cfg.masks s.val s.mode s.ph := by
  rcases tick_cases i s with ⟨-, h⟩ | ⟨-, -, h⟩ | ⟨-, -, -, h⟩ | ⟨-, -, -, h⟩ | ⟨-, -, -, -, h⟩ | ⟨-, -, -, -, h⟩ |
    ⟨-, -, -, h⟩ | ⟨-, -, -, h⟩ | ⟨-, -, -, h⟩ <;> rw [h] at he
  case inr.inr.inr.inr.inl | inr.inr.inr.inr.inr.inl =>
    rcases List.mem_append.mp he with he | he
    · exact .inl he
    · exact .inr (by rw [List.mem_singleton.mp he])
  all_goals exact .inl he

theorem step_trace_emittable {s t : State} (hm : s.cfg.masks.Ok) (h : step s = .next t) :
    ∀ e ∈ t.trace, e ∈ s.trace ∨ Emittable s.cfg.masks e.data := by
  have hkeep : ∀ i u rest, (u.cfg = s.cfg ∧ ∀ e ∈ u.trace, e ∈ s.trace ∨ Emittable s.cfg.masks e.data) →
      ((tick i u).withInputs rest).cfg = s.cfg ∧
        ∀ e ∈ ((tick i u).withInputs rest).trace, e ∈ s.trace ∨ Emittable s.cfg.masks e.data := by
    refine fun i u rest ⟨hcfg, hu⟩ => ⟨by simpa using hcfg, fun e he => ?_⟩
    rcases tick_trace_mem he with hold | hnew
    · exact hu e hold
    · rw [hnew, hcfg]; exact .inr (emittable_busData hm _ _ _)
  exact (step_induct (P := fun u => u.cfg = s.cfg ∧ ∀ e ∈ u.trace, e ∈ s.trace ∨ Emittable s.cfg.masks e.data)
    hkeep h ⟨rfl, fun _ => .inl⟩).2

/-- Settles O7: the emitted bytes are the emittable ones, whose two fixed bits are 3 and 1 under the default masks. -/
theorem emittedBytes : Obligations.EmittedBytes := by
  refine ⟨fun b => ?_, by decide, fun s t hm h e he => ?_⟩
  · rw [exists_busByte_iff_emittable Masks.default_ok, emittable_default_iff]
  · have hadd := step_trace_emittable (hm ▸ Masks.default_ok) h e he
    rwa [hm, emittable_default_iff] at hadd

/-! ### The write of a bus byte (30_encoding.md R54, 20_memory.md R31, 41_pulse_sequencer.md R92 to R94) -/

theorem State.busWdata_eq_some {s : State} {v : Byte} (h : s.busWdata = some v) :
    s.ph.isWrite = true ∧ busData s.cfg.masks s.val s.mode s.ph = v := by
  cases hw : s.busWr
  · rw [State.busWdata_of_not_busWr hw] at h; cases h
  · rw [State.busWdata_of_busWr hw] at h
    exact ⟨hw, Option.some.inj h⟩

section
variable {s : State} {v : Byte} (hb : s.busWdata = some v) (hd : s.nextIn.disturbed = false)
include hb hd

/-- An undisturbed requested byte is one tick of its write phase. -/
theorem State.busWrite_eq_tickWrite : s.busWrite v = .next ((tickWrite s.nextIn s).withInputs s.inputs.tail) := by
  obtain ⟨hrst, hviol⟩ := TickIn.of_not_disturbed hd
  rw [State.busWrite_of_requested hb, State.underPremises_advance hviol, State.advance,
    tick_of_write hrst (State.busWdata_eq_some hb).1]

theorem State.busWrite_ok (ha : s.nextIn.busAck = true) (he : s.nextIn.busErr = false) :
    s.busWrite v = .next ((s.busOk v).enterWait.withInputs s.inputs.tail) := by
  rw [State.busWrite_eq_tickWrite hb hd, tickWrite, if_pos ha, if_neg (Bool.eq_false_iff.mp he),
    (State.busWdata_eq_some hb).2]

theorem State.busWrite_unanswered (ha : s.nextIn.busAck = false) :
    s.busWrite v = .next (s.clearDone.withInputs s.inputs.tail) := by
  rw [State.busWrite_eq_tickWrite hb hd, tickWrite, if_neg (Bool.eq_false_iff.mp ha)]

theorem State.busWrite_err (ha : s.nextIn.busAck = true) (he : s.nextIn.busErr = true) :
    s.busWrite v = .next ((s.takeTransmissionFailure v).withInputs s.inputs.tail) := by
  rw [State.busWrite_eq_tickWrite hb hd, tickWrite, if_pos ha, if_pos he, (State.busWdata_eq_some hb).2]

end

/-- Settles O36: the three answers to the requested write. -/
theorem busbE0WritesByte : Obligations.BusbE0WritesByte := by
  intro s d r hb hd
  rw [exec_busbE0]
  exact ⟨State.busWrite_ok hb hd, State.busWrite_unanswered hb hd, fun ha he => ⟨_, State.busWrite_err hb hd ha he⟩⟩

/-- Settles O37: the three answers to the requested write. -/
theorem busbE1WritesByte : Obligations.BusbE1WritesByte := by
  intro s d r hb hd
  rw [exec_busbE1]
  exact ⟨State.busWrite_ok hb hd, State.busWrite_unanswered hb hd, fun ha he => ⟨_, State.busWrite_err hb hd ha he⟩⟩

/-! ### The instruction a step runs (41_pulse_sequencer.md R90, 20_memory.md R44) -/

theorem step_of_fetch_instr {s : State} {i : Instr} (h : s.fetch = .instr i) : step s = exec i s := by
  rw [step, h]

theorem step_of_fetch_hold {s : State} (h : s.fetch = .hold) : step s = s.underPremises s.advance := by
  rw [step, h]

theorem State.ready_of_ph_ne_idle {s : State} (h : s.ph ≠ .idle) : s.ready = false :=
  Bool.eq_false_iff.mpr (h ∘ s.ready_iff.mp)

theorem Phase.ne_idle_of_isWrite {p : Phase} (h : p.isWrite = true) : p ≠ .idle := by
  rintro rfl; cases h

/-- A bus byte that decodes is what a machine in a write phase fetches. -/
theorem State.fetch_busByte {s : State} {b : Byte} {i : Instr} (hr : s.nextIn.rst = false) (hb : s.busWdata = some b)
    (hi : decode s.cfg.masks (.bus8 b) = .ok i) : s.fetch = .instr i := by
  have hready := State.ready_of_ph_ne_idle (Phase.ne_idle_of_isWrite (State.busWdata_eq_some hb).1)
  simp [State.fetch, hr, hready, hb, hi]

theorem State.fetch_hold_of_not_ready {s : State} (hd : s.ready = false) (hw : s.ph.isWrite = false) : s.fetch = .hold := by
  simp [State.fetch, hd, State.busWdata_of_not_busWr hw]

/-- Where no instruction stands: in a reset tick, idle without a request, in a wait phase, in the fault state. -/
theorem State.fetch_hold {s : State} (h : s.nextIn.rst = true ∨ (s.ready = true ∧ s.nextIn.reqValid = false) ∨
    s.ph.isWait = true ∨ s.faulted = true) : s.fetch = .hold := by
  rcases h with hr | ⟨hd, hv⟩ | hw | hf
  · simp [State.fetch, hr]
  · simp [State.fetch, hd, hv]
  · exact State.fetch_hold_of_not_ready (State.ready_of_ph_ne_idle (by rintro hp; simp [hp] at hw)) (Phase.isWait_not_isWrite hw)
  · have hp := s.faulted_iff.mp hf
    exact State.fetch_hold_of_not_ready (State.ready_of_ph_ne_idle (by simp [hp])) (by simp [hp])

/-- Settles O39: what `fetch` finds in each of the cases is what `step` runs. -/
theorem stepRunsDecodedInstruction : Obligations.StepRunsDecodedInstruction := by
  refine ⟨fun s hr hd hv i hi => ?_, fun s b hr hb i hi => ?_, fun s hcase hviol => ?_⟩
  · rw [decode, decodeReq_encodeReq] at hi
    injection hi with hi
    exact step_of_fetch_instr (hi ▸ State.fetch_request hr (s.ready_iff.mp hd) hv)
  · exact step_of_fetch_instr (State.fetch_busByte hr hb hi)
  · rw [step_of_fetch_hold (State.fetch_hold hcase), State.underPremises_advance hviol]

/-- The latches that hold nibble `d` high, in a write phase of the high nibble, request the byte of `d`. -/
theorem busByte_append_high {m : Masks} (hm : m.Ok) (d l : Nibble) (r : Mode) {p : Phase} (hw : p.isWrite = true) (hn : p.nib = 0) :
    busByte m (d ++ l) r p = some (encodeBus m d r (decide (p.microStep = 2))) := by
  rw [busByte_eq_encodeBus hm _ _ hw, if_pos hn]
  exact congrArg (fun x => some (encodeBus m x r _)) BitVec.extractLsb'_append_eq_left

/-- A placed instruction is what the step finds next. -/
theorem State.fetch_place {s : State} (hm : s.cfg.masks.Ok) (i : Instr) : (s.place i).fetch = .instr i := by
  cases i with
  | sendc v => exact State.fetch_request rfl rfl rfl
  | sendd v => exact State.fetch_request rfl rfl rfl
  | busbE0 d r => exact State.fetch_busByte rfl (busByte_append_high hm d _ r (p := .hSetup) rfl rfl) (decodeBus_encodeBus hm d r false)
  | busbE1 d r => exact State.fetch_busByte rfl (busByte_append_high hm d _ r (p := .hEnHi) rfl rfl) (decodeBus_encodeBus hm d r true)

/-- Settles O40: bits that decode to `i` place `i`, and the step fetches it. -/
theorem placedWordRunsNext : Obligations.PlacedWordRunsNext := by
  intro s nbits w i hm hi
  have hplace : s.withFetchWord nbits w = s.place i := by rw [State.withFetchWord, State.placeBits, hi]
  rw [hplace]
  exact step_of_fetch_instr (State.fetch_place hm i)

/-! ### The opcode map (30_encoding.md R55) -/

/-- Settles O1: each word is decoded as written. -/
theorem encodedWordsDecode : Obligations.EncodedWordsDecode := by
  unfold Obligations.EncodedWordsDecode
  decide

/-- The mask of the two request rows keeps bit 8. -/
theorem and_reqMask (w : Req9) : w &&& 0x100#9 = if w.getLsbD 8 then 0x100#9 else 0x000#9 := BitVec.and_twoPow w 8

theorem decodeReq_eq_requestInstr_setWidth (w : Req9) : decodeReq w = requestInstr (Mode.ofBool (w.getLsbD 8)) (w.setWidth 8) := by
  rw [decodeReq_eq_requestInstr, BitVec.setWidth_eq_extractLsb' (by decide)]

/-- The fixed bits of the two bus rows give the backlight, read/write and enable lines under the default masks. -/
theorem lines_of_busMask : ∀ (b : Byte) (en : Bool), b &&& 0x0E#8 = (if en then 0x0C#8 else 0x08#8) →
    Emittable Masks.default b ∧ lineHigh Masks.default.en b = en := by decide +kernel

/-- The RS line is bit 0 under the default masks. -/
theorem modeOf_default : ∀ b : Byte, Masks.default.modeOf b = Mode.ofBool (b.getLsbD 0) := by decide +kernel

theorem decodeBus_of_busMask {b : Byte} {en : Bool} (h : b &&& 0x0E#8 = (if en then 0x0C#8 else 0x08#8)) :
    decodeBus Masks.default b = .ok (busInstr en (b.extractLsb 7 4) (Mode.ofBool (b.getLsbD 0))) := by
  obtain ⟨hem, hen⟩ := lines_of_busMask b en h
  rw [decodeBus_eq_busInstr hem, hen, modeOf_default]
  rfl

/-- Settles O4: the mask of a request row keeps bit 8, that of a bus row the three lines that tell the classes apart. -/
theorem opcodeMapByMatchAndMask : Obligations.OpcodeMapByMatchAndMask := by
  refine ⟨fun w hw => ?_, fun w hw => ?_, fun w => ?_,
    fun b hb => decodeBus_of_busMask (en := false) hb, fun b hb => decodeBus_of_busMask (en := true) hb⟩
  · cases h8 : w.getLsbD 8
    · rw [decode, decodeReq_eq_requestInstr_setWidth, h8]; rfl
    · rw [and_reqMask, h8] at hw; exact absurd hw (by decide)
  · cases h8 : w.getLsbD 8
    · rw [and_reqMask, h8] at hw; exact absurd hw (by decide)
    · rw [decode, decodeReq_eq_requestInstr_setWidth, h8]; rfl
  · rw [and_reqMask]
    cases w.getLsbD 8
    · exact .inl rfl
    · exact .inr rfl

end Sys2Proof.Machine

/-! ## One request (40_send_byte.md): the bytes of a transfer, what a run adds to the trace and the receiver, the transfer as pulses and as
`SendByte`, and programs. -/

namespace Sys2Proof.Machine

/-! ### The two setup bytes (40_send_byte.md R74) -/

theorem extractLsb'_append_extractLsb'_byte (v : Byte) : v.extractLsb' 4 4 ++ v.extractLsb' 0 4 = v := by
  rw [BitVec.extractLsb'_append_extractLsb'_eq_extractLsb' (by rfl)]; simp

/-- The flags and the enable bit stand in bits 3:0. -/
theorem flags_and_en_low : ∀ m ∈ Masks.admitted, ∀ md ∈ [Mode.command, .data],
    modeFlags m md &&& 0xF0#8 = 0#8 ∧ m.en &&& 0xF0#8 = 0#8 := by decide

/-- The nibble of a bus byte is its bits 7:4. -/
theorem extractLsb'_encodeBus {m : Masks} (hm : m.Ok) (d : Nibble) (r : Mode) (en : Bool) :
    (encodeBus m d r en).extractLsb' 4 4 = d := congrArg Pins.db (pinsOfBusByte m hm d r en)

/-- Bits 3:0 under a nibble in bits 7:4 are those of the flags. -/
theorem extractLsb'_append_zero_or (d : Nibble) (f : Byte) : ((d ++ 0#4) ||| f).extractLsb' 0 4 = f.extractLsb' 0 4 := by
  rw [BitVec.extractLsb'_or, BitVec.extractLsb'_append_eq_right, BitVec.zero_or]

/-- Bits 7:4 of a setup byte, in place. -/
theorem or_flags_and_dataMask {f : Byte} (hf : f &&& 0xF0#8 = 0#8) (v : Byte) : ((v &&& 0xF0#8) ||| f) &&& 0xF0#8 = v &&& 0xF0#8 := by
  rw [BitVec.and_or_distrib_right, hf, BitVec.or_zero, BitVec.and_assoc, BitVec.and_self]

/-- The two nibbles, each moved to its place, make the byte. -/
theorem hiByte_or_loByte_shift : ∀ v : Byte, hiByte v ||| (loByte v >>> 4) = v := by decide +kernel

/-- Settles O6: each setup byte is its nibble in bits 7:4 over the flags, which like the enable bit stand in bits 3:0. -/
theorem setupByteLaws : Obligations.SetupByteLaws := by
  intro m hm b md hi lo flags
  obtain ⟨hflags, hen⟩ := flags_and_en_low m hm.mem_admitted md (Mode.mem_both md)
  have hhi : hi &&& 0xF0#8 = hiByte b := or_flags_and_dataMask hflags b
  have hlo : lo &&& 0xF0#8 = loByte b := or_flags_and_dataMask hflags (b <<< 4)
  refine ⟨?_, ?_, ?_, ?_, ?_, ?_, hiSetup_and_not_en hm b md⟩
  · exact (congrArg (BitVec.extractLsb' 4 4) (hiSetup_eq_encodeBus hm b md)).trans (extractLsb'_encodeBus hm _ _ _)
  · exact (congrArg (BitVec.extractLsb' 4 4) (loSetup_eq_encodeBus hm b md)).trans (extractLsb'_encodeBus hm _ _ _)
  · exact (congrArg (fun x => (x ||| flags).extractLsb' 0 4) (hiByte_eq_append b)).trans (extractLsb'_append_zero_or _ _)
  · exact (congrArg (fun x => (x ||| flags).extractLsb' 0 4) (loByte_eq_append b)).trans (extractLsb'_append_zero_or _ _)
  · rw [hhi, hlo, hiByte_or_loByte_shift]
  · rw [BitVec.and_or_distrib_right, hen, BitVec.or_zero]

/-! ### What a run adds to the trace, and what the reference receiver makes of it (40_send_byte.md R79) -/

/-- The bytes of the `ok` entries of a trace, in order. -/
def okBytes (tr : List Txn) : List Byte := (tr.filter (fun e => e.result == .ok)).map Txn.data

theorem okBytes_append (tr new : List Txn) : okBytes (tr ++ new) = okBytes tr ++ okBytes new := by
  simp [okBytes]

theorem okBytes_of_all_ok {new : List Txn} (h : ∀ e ∈ new, e.result = .ok) : okBytes new = new.map Txn.data := by
  rw [okBytes, List.filter_eq_self.mpr (by simpa using h)]

/-- `t` comes from `s` by the transactions `new`: the receiver has seen the `ok` ones, and the latch holds the byte of the last one, if it
was not drawn. -/
structure AddsToTrace (s t : State) (new : List Txn) : Prop where
  keeps : KeepsHistory s t
  trace : t.trace = s.trace ++ new
  addr  : ∀ e ∈ new, e.addr = busAddr
  rx    : t.rx = receiveAll s.cfg.masks (okBytes new) s.rx
  latch : t.draws = s.draws → t.xp = (new.getLast?.map Txn.data).getD s.xp

theorem AddsToTrace.of_kept {s t : State} (hk : KeepsHistory s t) (htr : t.trace = s.trace) (hrx : t.rx = s.rx)
    (hxp : t.draws = s.draws → t.xp = s.xp) : AddsToTrace s t [] :=
  ⟨hk, by simpa using htr, by simp, hrx, hxp⟩

theorem AddsToTrace.refl (s : State) : AddsToTrace s s [] := .of_kept (KeepsHistory.refl s) rfl rfl fun _ => rfl

theorem AddsToTrace.trans {s t u : State} {new more : List Txn} (h : AddsToTrace s t new) (k : AddsToTrace t u more) :
    AddsToTrace s u (new ++ more) where
  keeps := h.keeps.trans k.keeps
  trace := by rw [k.trace, h.trace, List.append_assoc]
  addr := List.forall_mem_append.mpr ⟨h.addr, k.addr⟩
  rx := by rw [k.rx, h.rx, h.keeps.cfg, okBytes_append, receiveAll_append]
  latch hd := by
    have htu : u.draws = t.draws := le_antisymm (hd ▸ h.keeps.draws) k.keeps.draws
    rw [k.latch htu, h.latch (htu ▸ hd), List.getLast?_append]
    cases more.getLast? <;> rfl

theorem AddsToTrace.withInputs {s t : State} {new : List Txn} (h : AddsToTrace s t new) (is : List TickIn) :
    AddsToTrace s (t.withInputs is) new :=
  ⟨h.keeps.withInputs is, h.trace, h.addr, h.rx, h.latch⟩

/-- A tick adds the entry of the write it completes, if it completes one; a draw is a reset or a failed write. -/
theorem tick_addsToTrace (i : TickIn) (s : State) :
    ∃ new, AddsToTrace s (tick i s) new ∧
      (i.rst = false → (∀ e ∈ new, e.result = .ok) → (tick i s).draws = s.draws) := by
  have hk := tick_keepsHistory i s
  rcases tick_cases i s with ⟨hr, h⟩ | ⟨-, -, h⟩ | ⟨-, -, -, h⟩ | ⟨-, -, -, h⟩ | ⟨-, -, -, -, h⟩ | ⟨-, -, -, -, h⟩ |
    ⟨-, -, -, h⟩ | ⟨-, -, -, h⟩ | ⟨-, -, -, h⟩ <;> rw [h] at hk ⊢
  · exact ⟨[], .of_kept hk rfl rfl (fun hd => absurd hd (by simp)), fun hn => absurd hr (by simp [hn])⟩
  · exact ⟨[], .of_kept hk rfl rfl (fun _ => rfl), fun _ _ => rfl⟩
  · exact ⟨[], .of_kept hk rfl rfl (fun _ => rfl), fun _ _ => rfl⟩
  · exact ⟨[], .of_kept hk rfl rfl (fun _ => rfl), fun _ _ => rfl⟩
  · exact ⟨[okTxn _], ⟨hk, rfl, by simp [okTxn], rfl, fun _ => rfl⟩, fun _ _ => rfl⟩
  · exact ⟨[errTxn _], ⟨hk, rfl, by simp [errTxn], rfl, fun hd => absurd hd (by simp)⟩,
      fun _ hok => absurd (hok _ (List.mem_singleton.mpr rfl)) (by simp [errTxn])⟩
  · exact ⟨[], .of_kept hk rfl rfl (fun _ => rfl), fun _ _ => rfl⟩
  · exact ⟨[], .of_kept hk rfl rfl (fun _ => rfl), fun _ _ => rfl⟩
  · exact ⟨[], .of_kept hk rfl rfl (fun _ => rfl), fun _ _ => rfl⟩

theorem ticks_addsToTrace (is : List TickIn) (s : State) : ∃ new, AddsToTrace s (ticks is s) new := by
  induction is generalizing s with
  | nil => exact ⟨[], .refl s⟩
  | cons i is ih =>
    obtain ⟨new, hnew, -⟩ := tick_addsToTrace i s
    obtain ⟨more, hmore⟩ := ih (tick i s)
    exact ⟨new ++ more, hnew.trans hmore⟩

/-- The enable line is bit 2 under the default masks. -/
theorem lineHigh_en_default : ∀ b : Byte, lineHigh Masks.default.en b = b.getLsbD 2 := by decide +kernel

/-- Settles O59: the enable line is bit 2 and RS bit 0; and each tick of a run adds its `ok` entry to what the receiver sees. -/
theorem receiverFollowsOkWrites : Obligations.ReceiverFollowsOkWrites := by
  refine ⟨fun x r => ?_, fun is s => ?_⟩
  · simp only [receive, lineHigh_en_default, modeOf_default, Bool.and_eq_true, Bool.not_eq_true']
    rfl
  · obtain ⟨new, hnew⟩ := ticks_addsToTrace is s
    exact ⟨new, hnew.trace, hnew.rx⟩

/-! ### The frame of a request -/

/-- The state from which an accepted request's transfer runs. -/
def State.begun (s : State) (md : Mode) (b : Byte) : State := (s.accept md b).withInputs s.inputs.tail

@[simp] theorem State.begun_cfg (s : State) (md : Mode) (b : Byte) : (s.begun md b).cfg = s.cfg := rfl
@[simp] theorem State.begun_val (s : State) (md : Mode) (b : Byte) : (s.begun md b).val = b := rfl
@[simp] theorem State.begun_mode (s : State) (md : Mode) (b : Byte) : (s.begun md b).mode = md := rfl
@[simp] theorem State.begun_ph (s : State) (md : Mode) (b : Byte) : (s.begun md b).ph = .hSetup := rfl
@[simp] theorem State.begun_trace (s : State) (md : Mode) (b : Byte) : (s.begun md b).trace = s.trace := rfl
@[simp] theorem State.begun_rx (s : State) (md : Mode) (b : Byte) : (s.begun md b).rx = s.rx := rfl
@[simp] theorem State.begun_inputs (s : State) (md : Mode) (b : Byte) : (s.begun md b).inputs = s.inputs.tail := rfl
@[simp] theorem State.begun_draws (s : State) (md : Mode) (b : Byte) : (s.begun md b).draws = s.draws := rfl

/-- An accepted request is its transfer. -/
theorem State.sendRequest_of_idle {s : State} (hp : s.ph = .idle) (hr : s.nextIn.rst = false) (md : Mode) (b : Byte) :
    s.sendRequest md b = runTransfer s.inputs.tail (s.begun md b) := by
  have haccept : s.accepts = true := s.accepts_iff.mpr ⟨hp, hr⟩
  rw [State.sendRequest, if_pos haccept, State.advance_present_of_accepts haccept, State.begun]

/-- A property kept by every tick of a transfer in progress is kept by a transfer. -/
theorem runTransfer_induct_busy {P : State → Prop} {is : List TickIn}
    (hp : ∀ i ∈ is, ∀ u rest, u.busy = true → P u → P ((tick i u).withInputs rest)) {s : State} (hs : P s) :
    P (runTransfer is s) := by
  induction is generalizing s with
  | nil => exact hs
  | cons i is ih =>
    unfold runTransfer
    split
    · next hb => exact ih (fun j hj => hp j (.tail i hj)) (hp i (.head is) s is hb hs)
    · exact hs

/-- An acceptance adds nothing to the trace. -/
theorem accept_addsToTrace (s : State) (md : Mode) (b : Byte) (is : List TickIn) : AddsToTrace s ((s.accept md b).withInputs is) [] :=
  .of_kept ⟨rfl, List.prefix_rfl, List.prefix_rfl, le_rfl⟩ rfl rfl fun _ => rfl

/-- A request adds transactions to the trace, whether or not it is accepted. -/
theorem sendRequest_addsToTrace (s : State) (md : Mode) (b : Byte) : ∃ new, AddsToTrace s (s.sendRequest md b) new := by
  have hkeep : ∀ i u rest, (∃ new, AddsToTrace s u new) → ∃ new, AddsToTrace s ((tick i u).withInputs rest) new := by
    rintro i u rest ⟨new, hnew⟩
    obtain ⟨more, hmore, -⟩ := tick_addsToTrace i u
    exact ⟨new ++ more, (hnew.trans hmore).withInputs rest⟩
  rcases s.sendRequest_cases md b with ⟨-, h⟩ | ⟨-, h⟩ <;> rw [h]
  · exact runTransfer_induct hkeep _ _ ⟨[], accept_addsToTrace s md b _⟩
  · exact hkeep _ _ _ ⟨[], .refl s⟩

/-- `u` stands in or after a transfer of `b` in mode `md` begun at `s`, with no reset on the way. -/
structure Transferring (s : State) (md : Mode) (b : Byte) (u : State) (new : List Txn) : Prop where
  adds    : AddsToTrace s u new
  val     : u.val = b
  mode    : u.mode = md
  noDraws : (∀ e ∈ new, e.result = .ok) → u.draws = s.draws

/-- The latches are set at reset and at acceptance only (10_state.md R10). -/
theorem tick_latches {i : TickIn} {s : State} (hr : i.rst = false) (hb : s.busy = true) :
    (tick i s).val = s.val ∧ (tick i s).mode = s.mode := by
  rcases s.ph.inTransfer_iff.mp hb with hw | hw
  · rw [tick_of_write hr hw]
    cases ha : i.busAck <;> cases he : i.busErr <;> simp [tickWrite, ha, he]
  · rw [tick_of_wait hr hw]
    by_cases hc : s.cnt = 0 <;> simp [tickWait, hc]

theorem Transferring.after_tick {s u : State} {md : Mode} {b : Byte} {new : List Txn} (h : Transferring s md b u new) {i : TickIn}
    (hr : i.rst = false) (hb : u.busy = true) (rest : List TickIn) :
    ∃ new', Transferring s md b ((tick i u).withInputs rest) new' := by
  obtain ⟨more, hmore, hdraws⟩ := tick_addsToTrace i u
  obtain ⟨hval, hmode⟩ := tick_latches hr hb
  refine ⟨new ++ more, (h.adds.trans hmore).withInputs rest, hval.trans h.val, hmode.trans h.mode, fun hok => ?_⟩
  obtain ⟨hnew, hmoreOk⟩ := List.forall_mem_append.mp hok
  exact (hdraws hr hmoreOk).trans (h.noDraws hnew)

theorem State.nextIn_rst {s : State} (hr : NoReset s.inputs) : s.nextIn.rst = false := by
  cases hs : s.inputs with
  | nil => simp [State.nextIn, hs, TickIn.quiet]
  | cons i is => simpa [State.nextIn, hs] using hr i (by simp [hs])

/-- An accepted request with no reset ahead. -/
theorem sendRequest_transferring {s : State} (hp : s.ph = .idle) (hr : NoReset s.inputs) (md : Mode) (b : Byte) :
    ∃ new, Transferring s md b (s.sendRequest md b) new := by
  rw [State.sendRequest_of_idle hp (State.nextIn_rst hr)]
  refine runTransfer_induct_busy (P := fun u => ∃ new, Transferring s md b u new) ?_
    ⟨[], accept_addsToTrace s md b _, rfl, rfl, fun _ => rfl⟩
  rintro i hi u rest hb ⟨new, hnew⟩
  exact hnew.after_tick (hr i (List.mem_of_mem_tail hi)) hb rest

/-- Settles O35: what every request adds to the trace, and, for an accepted one without reset, what it adds is a transfer's. -/
theorem requestFrame : Obligations.RequestFrame := by
  intro s t md b h
  rw [exec_requestInstr] at h
  obtain rfl : t = s.sendRequest md b := State.underPremises_next h
  have hinputs := (s.sendRequest_inputs md b).trans (List.tail_suffix _)
  by_cases hacc : s.ph = .idle ∧ NoReset s.inputs
  · obtain ⟨new, hadds, hval, hmode, hdraws⟩ := sendRequest_transferring hacc.1 hacc.2 md b
    refine ⟨hadds.keeps.cfg, hinputs, new, hadds.trace, hadds.addr, fun _ _ => ⟨hval, hmode, fun hok => ?_⟩⟩
    exact ⟨hadds.latch (hdraws hok), hdraws hok, okBytes_of_all_ok hok ▸ hadds.rx⟩
  · obtain ⟨new, hadds⟩ := sendRequest_addsToTrace s md b
    exact ⟨hadds.keeps.cfg, hinputs, new, hadds.trace, hadds.addr, fun hp hr => absurd ⟨hp, hr⟩ hacc⟩

/-! ### A transfer as pulses (40_send_byte.md R72, R73) -/

/-- The bytes of the `k` write phases from `p` on; write phases are every second one. -/
def pulseBytes (m : Masks) (v : Byte) (md : Mode) (p : Phase) (k : Nat) : List Byte :=
  (List.range k).map fun j => busData m v md (Phase.next^[2 * j] p)

theorem pulseBytes_succ (m : Masks) (v : Byte) (md : Mode) (p : Phase) (k : Nat) :
    pulseBytes m v md p (k + 1) = busData m v md p :: pulseBytes m v md p.next.next k := by
  simp [pulseBytes, List.range_succ_eq_map, Function.comp_def, Nat.mul_add]

/-- The bytes of a transfer under admitted masks; the enable-low bytes are the setup bytes. -/
theorem transferBytes_eq {m : Masks} (hm : m.Ok) (b : Byte) (md : Mode) :
    transferBytes m b md = [hiSetup m b md, hiSetup m b md ||| m.en, hiSetup m b md,
      loSetup m b md, loSetup m b md ||| m.en, loSetup m b md] := by
  calc transferBytes m b md
      = [hiSetup m b md, hiSetup m b md ||| m.en, hiSetup m b md &&& ~~~m.en,
          loSetup m b md, loSetup m b md ||| m.en, loSetup m b md &&& ~~~m.en] := rfl
    _ = _ := by rw [hiSetup_and_not_en hm, loSetup_and_not_en hm]

/-- The bytes of a transfer are those of its six write phases. -/
theorem transferBytes_eq_pulseBytes {m : Masks} (hm : m.Ok) (b : Byte) (md : Mode) :
    transferBytes m b md = pulseBytes m b md .hSetup 6 := by
  calc transferBytes m b md
      = [hiSetup m b md &&& ~~~m.en, hiSetup m b md ||| m.en, hiSetup m b md &&& ~~~m.en,
          loSetup m b md &&& ~~~m.en, loSetup m b md ||| m.en, loSetup m b md &&& ~~~m.en] := by
        rw [transferBytes_eq hm, hiSetup_and_not_en hm, loSetup_and_not_en hm]
    _ = pulseBytes m b md .hSetup 6 := rfl

/-- The bytes of a transfer by nibble, mode and enable level. -/
theorem transferBytes_eq_encodeBus {m : Masks} (hm : m.Ok) (b : Byte) (md : Mode) :
    transferBytes m b md =
      [encodeBus m (b.extractLsb' 4 4) md false, encodeBus m (b.extractLsb' 4 4) md true, encodeBus m (b.extractLsb' 4 4) md false,
        encodeBus m (b.extractLsb' 0 4) md false, encodeBus m (b.extractLsb' 0 4) md true,
        encodeBus m (b.extractLsb' 0 4) md false] := by
  simp only [transferBytes_eq_pulseBytes hm, pulseBytes, busData_eq_encodeBus hm]
  rfl

theorem take_transferBytes {m : Masks} (hm : m.Ok) (b : Byte) (md : Mode) {k : Nat} (hk : k ≤ 6) :
    (transferBytes m b md).take k = pulseBytes m b md .hSetup k := by
  rw [transferBytes_eq_pulseBytes hm, pulseBytes, ← List.map_take, List.take_range, min_eq_left hk, pulseBytes]

theorem transferBytes_getElem? {m : Masks} (hm : m.Ok) (b : Byte) (md : Mode) {k : Nat} (hk : k < 6) :
    (transferBytes m b md)[k]? = some (busData m b md (Phase.next^[2 * k] .hSetup)) := by
  rw [transferBytes_eq_pulseBytes hm, pulseBytes, List.getElem?_map, List.getElem?_range hk, Option.map_some]

/-- The state after `k` writes of a transfer have been answered `ok` and their waits have passed. -/
def State.pulses (s : State) (rest : List TickIn) : Nat → State
  | 0 => s.withInputs rest
  | k + 1 => (s.pulsed rest).pulses rest k

/-- Nothing of the inputs before a pulse stays. -/
theorem State.pulsed_pulses (s : State) (is rest : List TickIn) (k : Nat) :
    (s.pulsed is).pulses rest k = (s.pulsed rest).pulses rest k := by
  cases k <;> rfl

section
variable (s : State) (rest : List TickIn) (k : Nat)

@[simp] theorem State.pulses_inputs : (s.pulses rest k).inputs = rest := by
  induction k generalizing s with
  | zero => rfl
  | succ k ih => exact ih _

@[simp] theorem State.pulses_cfg : (s.pulses rest k).cfg = s.cfg := by
  induction k generalizing s with
  | zero => rfl
  | succ k ih => exact ih _

@[simp] theorem State.pulses_val : (s.pulses rest k).val = s.val := by
  induction k generalizing s with
  | zero => rfl
  | succ k ih => exact ih _

@[simp] theorem State.pulses_mode : (s.pulses rest k).mode = s.mode := by
  induction k generalizing s with
  | zero => rfl
  | succ k ih => exact ih _

@[simp] theorem State.pulses_ph : (s.pulses rest k).ph = Phase.next^[2 * k] s.ph := by
  induction k generalizing s with
  | zero => rfl
  | succ k ih => exact ih _

@[simp] theorem State.pulses_trace :
    (s.pulses rest k).trace = s.trace ++ (pulseBytes s.cfg.masks s.val s.mode s.ph k).map okTxn := by
  induction k generalizing s with
  | zero => exact (List.append_nil _).symm
  | succ k ih => simp [State.pulses, pulseBytes_succ, ih]

@[simp] theorem State.pulses_rx :
    (s.pulses rest k).rx = receiveAll s.cfg.masks (pulseBytes s.cfg.masks s.val s.mode s.ph k) s.rx := by
  induction k generalizing s with
  | zero => rfl
  | succ k ih => simp [State.pulses, pulseBytes_succ, ih]

@[simp] theorem State.pulses_draws : (s.pulses rest k).draws = s.draws := by
  induction k generalizing s with
  | zero => rfl
  | succ k ih => exact ih _

/-- The last pulse gives the counter, `DONE` and the latch. -/
theorem State.pulses_succ : s.pulses rest (k + 1) = (s.pulses rest k).pulsed rest := by
  induction k generalizing s with
  | zero => rfl
  | succ k ih => rw [State.pulses, ih]; rfl

end

/-- A transfer performs the writes that are answered `ok`, each with its wait. -/
theorem runTransfer_okWrites {k : Nat} {is rest : List TickIn} {s : State} (hs : s.inputs = is)
    (hw : ∀ j < k, (Phase.next^[2 * j] s.ph).isWrite = true) (h : Env.okWrites s.cfg.waitTicks k is = some rest) :
    runTransfer is s = runTransfer rest (s.pulses rest k) := by
  induction k generalizing is s with
  | zero =>
    obtain rfl : is = rest := by simpa [Env.okWrites] using h
    rw [State.pulses, ← hs, State.withInputs_self]
  | succ k ih =>
    obtain ⟨js, ks, hans, hpass, hmore⟩ := Env.okWrites_succ h
    rw [runTransfer_pulse (hw 0 k.succ_pos) hans hpass,
      ih (s := s.pulsed ks) (is := ks) rfl (fun j hj => hw (j + 1) (Nat.succ_lt_succ hj)) hmore, State.pulsed_pulses, State.pulses]

theorem isWrite_iterate_next : ∀ j < 6, (Phase.next^[2 * j] .hSetup).isWrite = true := by decide

/-- A failure after `k` writes is `k` `ok` answers and then an `err` answer. -/
theorem Env.failsAfter_eq_some {w k : Nat} {is rest : List TickIn} (h : Env.failsAfter w k is = some rest) :
    ∃ js, Env.okWrites w k is = some js ∧ Env.answer js = some (.err, rest) := by
  induction k generalizing is with
  | zero => exact ⟨is, rfl, Env.failsAfter_zero h⟩
  | succ k ih =>
    obtain ⟨js, ks, hans, hpass, hmore⟩ := Env.failsAfter_succ h
    obtain ⟨ls, hok, herr⟩ := ih hmore
    exact ⟨ls, by simp only [Env.okWrites, hans, hpass, hok], herr⟩

/-! ### An accepted request that completes, or fails -/

/-- It answers if its transfer uses up undisturbed ticks only. -/
theorem exec_requestInstr_of_runTransfer {s t : State} {md : Mode} {b : Byte} (hp : s.ph = .idle) (hd : s.nextIn.disturbed = false)
    (hrun : runTransfer s.inputs.tail (s.begun md b) = t)
    (hused : ∃ pre, s.inputs.tail = pre ++ t.inputs ∧ ∀ i ∈ pre, i.disturbed = false) :
    exec (requestInstr md b) s = .next t := by
  obtain ⟨hrst, hviol⟩ := TickIn.of_not_disturbed hd
  rw [exec_requestInstr, State.sendRequest_of_idle hp hrst, hrun]
  obtain ⟨pre, hpre, hund⟩ := hused
  cases hs : s.inputs with
  | nil => exact State.underPremises_of_all t (by simp [hs])
  | cons i is =>
    rw [hs, List.tail_cons] at hpre
    refine State.underPremises_of_prefix (pre := i :: pre) (by rw [hs, hpre]; rfl) ?_
    exact List.forall_mem_cons.mpr
      ⟨by simpa [State.nextIn, hs] using hviol, fun j hj => (TickIn.of_not_disturbed (hund j hj)).2⟩

section
variable {s : State} {rest : List TickIn} (hm : s.cfg.masks.Ok) (hp : s.ph = .idle) (hd : s.nextIn.disturbed = false)
include hm hp hd

/-- A request whose six writes are answered `ok` has the effect `SendByte` has at the transaction level. -/
theorem exec_requestInstr_completed (md : Mode) (b : Byte) (h : Env.okWrites s.cfg.waitTicks 6 s.inputs.tail = some rest) :
    exec (requestInstr md b) s = .next ((s.completed md b).withInputs rest) := by
  have hend : (s.begun md b).pulses rest 6 = (s.completed md b).withInputs rest := by
    have hidle : Phase.next^[2 * 6] .hSetup = .idle := rfl
    rw [State.completed, transferBytes_eq_pulseBytes hm]
    refine State.eq_of_fields ?_ ?_ ?_ ?_ ?_ ?_ ?_ ?_ ?_ ?_ ?_
    · simp
    · simp
    · simp
    · simp [hidle]
    · simp [State.pulses_succ]
    · simp [State.pulses_succ]; rfl
    · simp [State.pulses_succ]; rfl
    · simp
    · simp
    · simp
    · simp
  refine exec_requestInstr_of_runTransfer hp hd ?_ (Env.okWrites_prefix h)
  rw [runTransfer_okWrites (s.begun_inputs md b) isWrite_iterate_next h, hend]
  exact runTransfer_of_not_busy (by simp [State.busy, State.completed])

/-- The state after a request's first `k` writes have been answered `ok` and the next one with `BusError`. -/
theorem exec_requestInstr_failed (md : Mode) (b : Byte) {k : Nat} (hk : k < 6)
    (h : Env.failsAfter s.cfg.waitTicks k s.inputs.tail = some rest) :
    ∃ t v, exec (requestInstr md b) s = .next t ∧ (transferBytes s.cfg.masks b md)[k]? = some v ∧
      t.trace = s.trace ++ ((transferBytes s.cfg.masks b md).take k).map okTxn ++ [errTxn v] ∧
      t.ph = .fault ∧ t.done = false ∧ t.val = b ∧ t.mode = md ∧ t.cfg = s.cfg ∧ t.inputs = rest := by
  obtain ⟨js, hok, herr⟩ := Env.failsAfter_eq_some h
  have hwrites := fun j (hj : j < k) => isWrite_iterate_next j (hj.trans hk)
  have hrun := runTransfer_okWrites (s.begun_inputs md b) hwrites hok
  rw [runTransfer_err (by rw [State.pulses_ph]; exact isWrite_iterate_next k hk) herr] at hrun
  refine ⟨_, _, exec_requestInstr_of_runTransfer hp hd hrun (Env.failsAfter_prefix h), transferBytes_getElem? hm b md hk, ?_⟩
  rw [take_transferBytes hm b md hk.le]
  simp

end

theorem modeFlags_eq_ite (m : Masks) (md : Mode) : modeFlags m md = m.bl ||| (if md = .data then m.rs else 0#8) := by
  cases md
  · exact (BitVec.or_zero).symm
  · rfl

/-- Settles O29: `SendByte`'s effect at the transaction level, written out. -/
theorem requestCompletesWithSixWrites : Obligations.RequestCompletesWithSixWrites := by
  intro s md b rest hm hp hd h
  rw [exec_requestInstr_completed hm hp hd md b h, ← modeFlags_eq_ite]
  rfl

/-! ### `SENDC` and `SENDD` under the default masks (40_send_byte.md R70, R71) -/

/-- RS is bit 0 under the default masks. -/
theorem lineHigh_rs_default : ∀ b : Byte, lineHigh Masks.default.rs b = b.getLsbD 0 := by decide +kernel

/-- RS is the mode in every byte of a transfer. -/
theorem lineHigh_rs_transferBytes {m : Masks} (hm : m.Ok) (b : Byte) (md : Mode) :
    ∀ x ∈ transferBytes m b md, lineHigh m.rs x = decide (md = .data) := by
  have hrs := fun d en => congrArg Pins.rs (pinsOfBusByte m hm d md en)
  rw [transferBytes_eq_encodeBus hm]
  simp only [List.forall_mem_cons, List.not_mem_nil, false_imp_iff, implies_true, and_true]
  exact ⟨hrs _ _, hrs _ _, hrs _ _, hrs _ _, hrs _ _, hrs _ _⟩

section
variable {s : State} {rest : List TickIn} (hm : s.cfg.masks = Masks.default) (hp : s.ph = .idle)
  (hd : s.nextIn.disturbed = false)
include hm hp hd

/-- A request that completes: what it has written and where it leaves NT4. -/
theorem exec_requestInstr_default_completed (md : Mode) (b : Byte) (h : Env.okWrites s.cfg.waitTicks 6 s.inputs.tail = some rest) :
    let hi := hiSetup Masks.default b md
    let lo := loSetup Masks.default b md
    ∃ t, exec (requestInstr md b) s = .next t ∧
      t.trace = s.trace ++ [hi, hi ||| 0x04#8, hi, lo, lo ||| 0x04#8, lo].map okTxn ∧
      (∀ x ∈ [hi, hi ||| 0x04#8, lo, lo ||| 0x04#8], x.getLsbD 0 = decide (md = .data)) ∧
      t.val = b ∧ t.mode = md ∧ t.ph = .idle ∧ t.done = true ∧ t.xp = lo ∧ t.inputs = rest ∧ t.cfg = s.cfg := by
  intro hi lo
  have hbytes : transferBytes Masks.default b md = [hi, hi ||| 0x04#8, hi, lo, lo ||| 0x04#8, lo] :=
    transferBytes_eq Masks.default_ok b md
  refine ⟨_, exec_requestInstr_completed (hm ▸ Masks.default_ok) hp hd md b h, ?_, fun x hx => ?_, rfl, rfl, rfl, rfl, ?_, rfl, rfl⟩
  · simp only [State.withInputs_trace, State.completed, hm, hbytes]
  · rw [← lineHigh_rs_default]
    refine lineHigh_rs_transferBytes Masks.default_ok b md x (hbytes ▸ ?_)
    grind
  · simp only [State.withInputs_xp, State.completed, hm]
    exact loSetup_and_not_en Masks.default_ok b md

/-- A request that fails ends in the fault state without `DONE`. -/
theorem exec_requestInstr_default_failed (md : Mode) (b : Byte) {k : Nat} (hk : k < 6)
    (h : Env.failsAfter s.cfg.waitTicks k s.inputs.tail = some rest) :
    ∃ t, exec (requestInstr md b) s = .next t ∧ t.faulted = true ∧ t.done = false := by
  obtain ⟨t, v, hexec, -, -, hph, hdone, -⟩ := exec_requestInstr_failed (hm ▸ Masks.default_ok) hp hd md b hk h
  exact ⟨t, hexec, t.faulted_iff.mpr hph, hdone⟩

end

/-- Settles O30: `SENDC` is the request in Command mode. -/
theorem sendcTransfersCommandByte : Obligations.SendcTransfersCommandByte := by
  refine ⟨fun s v rest hm hp hd h => ?_, fun s v k rest hm hk hp hd h => ?_, by decide, by decide, by decide, by decide⟩
  · exact exec_requestInstr_default_completed hm hp hd .command v h
  · exact exec_requestInstr_default_failed hm hp hd .command v hk h

/-- The two modes' setup bytes differ in RS. -/
theorem setup_data_eq_or_rs (m : Masks) (v : Byte) :
    hiSetup m v .data = hiSetup m v .command ||| m.rs ∧ loSetup m v .data = loSetup m v .command ||| m.rs :=
  ⟨(BitVec.or_assoc ..).symm, (BitVec.or_assoc ..).symm⟩

theorem transferBytes_data_eq_map {m : Masks} (hm : m.Ok) (v : Byte) :
    transferBytes m v .data = (transferBytes m v .command).map (· ||| m.rs) := by
  obtain ⟨hhi, hlo⟩ := setup_data_eq_or_rs m v
  have hcomm : ∀ x : Byte, x ||| m.rs ||| m.en = x ||| m.en ||| m.rs := fun x => by ac_rfl
  simp only [transferBytes_eq hm, hhi, hlo, hcomm, List.map_cons, List.map_nil]

/-- Settles O31: `SENDD` is the request in Data mode, and the bytes of the two modes differ in RS, which is bit 0. -/
theorem senddTransfersDataByte : Obligations.SenddTransfersDataByte := by
  refine ⟨fun s v rest hm hp hd h => ?_, fun s v k rest hm hk hp hd h => ?_, by decide, by decide, by decide,
    fun v => ⟨?_, fun x hx => ?_⟩⟩
  · exact exec_requestInstr_default_completed hm hp hd .data v h
  · exact exec_requestInstr_default_failed hm hp hd .data v hk h
  · rw [transferBytes_data_eq_map Masks.default_ok]; rfl
  · exact (lineHigh_eq_false_iff _ _).mp (lineHigh_rs_transferBytes Masks.default_ok v .command x hx)

/-! ### A failed request (40_send_byte.md R78) -/

/-- In the fault state a run without reset changes nothing, once `DONE` is 0. -/
theorem ticks_of_fault {is : List TickIn} {s : State} (hr : NoReset is) (hp : s.ph = .fault) (hd : s.done = false) :
    ticks is s = s := by
  have hclear : s.clearDone = s := by rw [State.clearDone, ← hd]
  induction is with
  | nil => rfl
  | cons i is ih =>
    obtain ⟨hri, hrs⟩ := List.forall_mem_cons.mp hr
    rw [ticks, tick_of_fault hri hp, hclear, ih hrs]

/-- A request at the fault state is one tick that does nothing. -/
theorem exec_requestInstr_of_fault {s : State} (hp : s.ph = .fault) (hd : s.nextIn.disturbed = false) (md : Mode) (b : Byte) :
    exec (requestInstr md b) s = .next (s.clearDone.withInputs s.inputs.tail) := by
  obtain ⟨hrst, hviol⟩ := TickIn.of_not_disturbed hd
  have hignored : s.accepts = false := by simp [State.accepts, State.ready_of_ph_ne_idle, hp]
  rw [exec_requestInstr, State.sendRequest, hignored, if_neg Bool.false_ne_true, State.advance_present_of_not_accepts hignored,
    State.underPremises_advance hviol, State.advance, tick_of_fault hrst hp]

/-- Settles O32: the failed write leads to the fault state, where neither ticks nor requests do anything. -/
theorem failureEndsTransfer : Obligations.FailureEndsTransfer := by
  intro s md b k rest hm hk hp hd h bytes
  obtain ⟨t, v, hexec, hv, htrace, hph, hdone, hval, hmode, hcfg, hinputs⟩ := exec_requestInstr_failed hm hp hd md b hk h
  refine ⟨t, v, hexec, hv, htrace, hph, hdone, hval, hmode, hcfg, hinputs, fun is hr => ?_, fun md' b' hd' => ?_⟩
  · rw [ticks_of_fault hr hph hdone]; exact ⟨rfl, hdone⟩
  · exact ⟨_, exec_requestInstr_of_fault hph hd' md' b', rfl, rfl⟩

/-! ### The transfer as `SendByte`, whatever the bus does (40_send_byte.md R72, R73, R78) -/

/-- The steps of `SendByte` still to come for an NT4 that stands at its phase. -/
def State.remaining (s : State) : List Micro :=
  if s.ph.inTransfer then (sendByte s.cfg.masks s.val s.mode).drop (s.ph.num - 1) else []

/-- A write phase stands at a write of its byte; the setup bytes have the enable bit low. -/
theorem State.remaining_of_isWrite {s : State} (hm : s.cfg.masks.Ok) (hw : s.ph.isWrite = true) {t : State} (hcfg : t.cfg = s.cfg)
    (hval : t.val = s.val) (hmode : t.mode = s.mode) (hph : t.ph = s.ph.next) :
    s.remaining = .write (busData s.cfg.masks s.val s.mode s.ph) :: t.remaining := by
  rw [State.remaining, State.remaining, hcfg, hval, hmode, hph]
  cases hp : s.ph
  case hSetup => exact congrArg (Micro.write · :: _) (hiSetup_and_not_en hm s.val s.mode).symm
  case lSetup => exact congrArg (Micro.write · :: _) (loSetup_and_not_en hm s.val s.mode).symm
  case hEnHi | hEnLo | lEnHi | lEnLo => rfl
  all_goals exact absurd hw (by rw [hp]; decide)

/-- A wait phase stands at a wait. -/
theorem State.remaining_of_isWait {s : State} (hw : s.ph.isWait = true) (d : Bool) (is : List TickIn) :
    s.remaining = .wait :: ({ s with ph := s.ph.next, done := d, inputs := is } : State).remaining := by
  rw [State.remaining, State.remaining]
  cases hp : s.ph
  case hWait1 | hWait2 | hWait3 | lWait1 | lWait2 | lWait3 => rfl
  all_goals exact absurd hw (by rw [hp]; decide)

/-- Where the bus gives no more answers a transfer hangs in its next write, if one is left. -/
theorem State.runMicro_remaining_nil {s : State} (hp : s.ph ≠ .fault) :
    runMicro s.remaining [] = ([], if s.ph = .idle ∨ s.ph = .lWait3 then .complete else .hanging) := by
  rw [State.remaining]
  cases hph : s.ph
  case fault => exact absurd hph hp
  all_goals rfl

/-- `e` says how a transfer stands in state `t`. -/
def EndsAs (t : State) (e : TransferEnd) : Prop :=
  (e = .failed ↔ t.ph = .fault) ∧ (e = .complete ↔ t.ph = .idle ∨ t.ph = .lWait3) ∧ (t.ph = .idle → t.done = true)

/-- From `s` to `t` the transfer in progress does what `SendByte`'s remaining steps do under the same answers. -/
def RunsAsSendByte (s t : State) : Prop :=
  ∃ (new : List Txn) (e : TransferEnd),
    t.trace = s.trace ++ new ∧ runMicro s.remaining (new.map Txn.result) = (new, e) ∧ EndsAs t e

/-- In a transfer, or at its end. -/
def State.underway (s : State) : Prop := s.busy = true ∨ (s.ph = .idle ∧ s.done = true)

/-- The end of a wait leads to the next write, or from the last one to `IDLE` with `DONE`. -/
theorem State.underway_waitEnd {s : State} (hw : s.ph.isWait = true) (is : List TickIn) :
    (State.withInputs { s with ph := s.ph.next, done := s.ph == .lWait3 } is).underway := by
  rcases Phase.isWait_next hw with hn | hn
  · refine .inr ⟨hn, ?_⟩
    cases hp : s.ph
    case lWait3 => simp
    all_goals simp [hp, Phase.next] at hn hw
  · exact .inl (Phase.isWrite_inTransfer hn)

theorem RunsAsSendByte.refl {s : State} (h : s.underway) : RunsAsSendByte s s := by
  have hfault : s.ph ≠ .fault := by
    rintro hp
    rcases h with hb | ⟨hidle, -⟩
    · simp [State.busy, hp] at hb
    · simp [hp] at hidle
  refine ⟨[], _, (List.append_nil _).symm, State.runMicro_remaining_nil hfault, ?_, ?_, fun hp => ?_⟩
  · split <;> simp [hfault]
  · split <;> simp [*]
  · rcases h with hb | ⟨-, hd⟩
    · simp [State.busy, hp] at hb
    · exact hd

/-- What adds nothing to the trace and passes no step. -/
theorem RunsAsSendByte.of_kept {s u t : State} (h : RunsAsSendByte u t) (htrace : u.trace = s.trace) (hrem : u.remaining = s.remaining) :
    RunsAsSendByte s t := by
  rwa [RunsAsSendByte, ← htrace, ← hrem]

theorem RunsAsSendByte.after_wait {s u t : State} (h : RunsAsSendByte u t) (htrace : u.trace = s.trace)
    (hrem : s.remaining = .wait :: u.remaining) : RunsAsSendByte s t := by
  rw [RunsAsSendByte, hrem, ← htrace]
  exact h

theorem RunsAsSendByte.after_ok {s u t : State} {v : Byte} (h : RunsAsSendByte u t) (htrace : u.trace = s.trace ++ [okTxn v])
    (hrem : s.remaining = .write v :: u.remaining) : RunsAsSendByte s t := by
  obtain ⟨new, e, hnew, hrun, hend⟩ := h
  refine ⟨okTxn v :: new, e, ?_, ?_, hend⟩
  · rw [hnew, htrace, List.append_assoc]; rfl
  · rw [hrem, List.map_cons]
    exact congrArg (fun r => (okTxn v :: r.1, r.2)) hrun

theorem RunsAsSendByte.of_err {s t : State} {v : Byte} {more : List Micro} (htrace : t.trace = s.trace ++ [errTxn v])
    (hph : t.ph = .fault) (hrem : s.remaining = .write v :: more) : RunsAsSendByte s t := by
  refine ⟨[errTxn v], .failed, htrace, by rw [hrem]; rfl, ?_⟩
  simp [EndsAs, hph]

/-- A transfer without reset does what is left of `SendByte`, tick by tick. -/
theorem runTransfer_runsAsSendByte {is : List TickIn} {s : State} (hm : s.cfg.masks.Ok) (hr : NoReset is) (hs : s.underway) :
    RunsAsSendByte s (runTransfer is s) := by
  induction is generalizing s with
  | nil => exact .refl hs
  | cons i is ih =>
    obtain ⟨hri, hris⟩ := List.forall_mem_cons.mp hr
    cases hb : s.busy
    case false => rw [runTransfer_of_not_busy hb]; exact .refl hs
    rw [runTransfer, if_pos hb]
    rcases s.ph.inTransfer_iff.mp hb with hw | hw
    · rw [tick_of_write hri hw, tickWrite]
      cases ha : i.busAck
      · exact (ih (s := s.clearDone.withInputs is) hm hris (.inl hb)).of_kept rfl rfl
      · have hrem := State.remaining_of_isWrite hm hw (t := s.written is) rfl rfl rfl rfl
        cases he : i.busErr
        · have hbusy : (s.written is).busy = true := Phase.isWait_inTransfer (Phase.isWrite_next hw)
          exact (ih (s := s.written is) hm hris (.inl hbusy)).after_ok rfl hrem
        · simp only [if_true]
          rw [runTransfer_of_not_busy rfl]
          exact .of_err rfl rfl hrem
    · rw [tick_of_wait hri hw, tickWait]
      by_cases hc : s.cnt = 0
      · rw [if_pos hc]
        refine RunsAsSendByte.after_wait (ih ?_ hris ?_) rfl (State.remaining_of_isWait hw _ _)
        · exact hm
        · exact State.underway_waitEnd hw is
      · rw [if_neg hc]
        exact RunsAsSendByte.of_kept (ih hm hris (.inl hb)) rfl rfl

/-- Settles O33: the acceptance leaves all of `SendByte` to do, and with the launch premises the request answers. -/
theorem transferRefinesSendByte : Obligations.TransferRefinesSendByte := by
  intro s md b hm hp hr hx hready hdriver
  obtain ⟨new, e, htrace, hrun, hfailed, hcomplete, hdone⟩ :=
    runTransfer_runsAsSendByte (s := s.begun md b) hm (fun i hi => hr i (List.mem_of_mem_tail hi)) (.inl rfl)
  refine ⟨_, new, e, ?_, htrace, hrun, hfailed, hcomplete, hdone⟩
  rw [exec_requestInstr, State.underPremises_of_all _ (violation_of_premises hx hready hdriver),
    State.sendRequest_of_idle hp (State.nextIn_rst hr)]

/-! ### Programs of served requests (40_send_byte.md R75, 42_command_macros.md R120) -/

/-- Some number of steps leads from `s` to `t`. -/
def Reaches (s t : State) : Prop := ∃ n, Sys2Proof.core.run n s = .next t

theorem Reaches.refl (s : State) : Reaches s s := ⟨0, rfl⟩

theorem core_run_succ {s u : State} (h : step s = .next u) (n : Nat) : Sys2Proof.core.run (n + 1) s = Sys2Proof.core.run n u := by
  have hs : Sys2Proof.core.step s = .next u := h
  simp only [Host.Core.run, hs]

theorem Reaches.of_step {s u t : State} (h : step s = .next u) (k : Reaches u t) : Reaches s t := by
  obtain ⟨n, hn⟩ := k
  exact ⟨n + 1, by rw [core_run_succ h, hn]⟩

theorem Reaches.trans {s u t : State} (h : Reaches s u) (k : Reaches u t) : Reaches s t := by
  obtain ⟨n, hn⟩ := h
  induction n generalizing s with
  | zero =>
    injection hn with hn
    exact hn ▸ k
  | succ n ih =>
    simp only [Host.Core.run] at hn
    split at hn
    · next v hv => exact .of_step hv (ih hn)
    · cases hn
    · cases hn

/-- An idle NT4 waits for the request, and its step is then the whole transfer. -/
theorem reaches_completed {s : State} {q : Mode × Byte} {js rest : List TickIn} (hm : s.cfg.masks.Ok) (hp : s.ph = .idle)
    (hreq : Env.request s.inputs = some (q, js)) (hok : Env.okWrites s.cfg.waitTicks 6 js = some rest) :
    Reaches s ((s.completed q.1 q.2).withInputs rest) := by
  generalize his : s.inputs = is at hreq
  induction is generalizing s with
  | nil => cases hreq
  | cons i is ih =>
    have hnext : s.nextIn = i := by simp [State.nextIn, his]
    unfold Env.request at hreq
    split at hreq; · cases hreq
    rename_i hund
    have hd : s.nextIn.disturbed = false := by simpa [hnext] using hund
    obtain ⟨hrst, hviol⟩ := TickIn.of_not_disturbed hd
    split at hreq
    · rename_i hv
      obtain ⟨rfl, rfl⟩ : (i.reqMode, i.reqValue) = q ∧ is = js := by simpa using hreq
      have hstep : step s = exec (requestInstr i.reqMode i.reqValue) s := by
        rw [step_of_fetch_instr (State.fetch_request hrst hp (hnext ▸ hv)), hnext]
      have htail : s.inputs.tail = is := by rw [his, List.tail_cons]
      exact .of_step (hstep.trans (exec_requestInstr_completed hm hp hd _ _ (htail ▸ hok))) (.refl _)
    · rename_i hv
      have hstep : step s = .next (s.clearDone.withInputs is) := by
        have hhold := State.fetch_hold (.inr (.inl ⟨s.ready_iff.mpr hp, by simpa [hnext] using hv⟩))
        rw [step_of_fetch_hold hhold, State.underPremises_advance hviol, State.advance, tick_of_idle hrst hp, tickIdle,
          hnext, if_neg hv, his, List.tail_cons]
      exact .of_step hstep (ih (s := s.clearDone.withInputs is) hm hp hok rfl hreq)

/-- The effect of the completed requests of a program, one after the other. -/
def State.completedAll (s : State) : List (Mode × Byte) → State
  | [] => s
  | q :: qs => (s.completed q.1 q.2).completedAll qs

/-- No input is left over from before. -/
theorem State.completedAll_withInputs (s : State) (prog : List (Mode × Byte)) (is : List TickIn) :
    (s.withInputs is).completedAll prog = (s.completedAll prog).withInputs is := by
  induction prog generalizing s with
  | nil => rfl
  | cons q qs ih => exact ih (s.completed q.1 q.2)

/-- A served request is presented to an idle NT4 and its six writes are answered `ok`. -/
theorem Env.serves_cons {w : Nat} {q : Mode × Byte} {qs : List (Mode × Byte)} {is rest : List TickIn}
    (h : Env.serves w (q :: qs) is = some rest) :
    ∃ js ks, Env.request is = some (q, js) ∧ Env.okWrites w 6 js = some ks ∧ Env.serves w qs ks = some rest := by
  unfold Env.serves at h
  split at h
  · rename_i q' js hreq
    split at h
    · rename_i hq
      split at h
      · rename_i ks hok
        exact ⟨js, ks, hq ▸ hreq, hok, h⟩
      · cases h
    · cases h
  · cases h

theorem reaches_completedAll {prog : List (Mode × Byte)} {s : State} {rest : List TickIn} (hm : s.cfg.masks.Ok) (hp : s.ph = .idle)
    (h : Env.serves s.cfg.waitTicks prog s.inputs = some rest) : Reaches s ((s.completedAll prog).withInputs rest) := by
  induction prog generalizing s with
  | nil =>
    obtain rfl : s.inputs = rest := by simpa [Env.serves] using h
    exact .refl s
  | cons q qs ih =>
    obtain ⟨js, ks, hreq, hok, hmore⟩ := Env.serves_cons h
    have hqs := ih (s := (s.completed q.1 q.2).withInputs ks) hm rfl hmore
    rw [State.completedAll_withInputs] at hqs
    exact (reaches_completed hm hp hreq hok).trans hqs

/-- The bytes of a program's transfers, in order. -/
def programBytes (m : Masks) (prog : List (Mode × Byte)) : List Byte := prog.flatMap fun q => transferBytes m q.2 q.1

theorem programBytes_cons (m : Masks) (q : Mode × Byte) (qs : List (Mode × Byte)) :
    programBytes m (q :: qs) = transferBytes m q.2 q.1 ++ programBytes m qs := List.flatMap_cons

theorem programBytes_length (m : Masks) (prog : List (Mode × Byte)) : (programBytes m prog).length = 6 * prog.length := by
  have hsix : ∀ q : Mode × Byte, (transferBytes m q.2 q.1).length = 6 := fun _ => rfl
  simp [programBytes, List.length_flatMap, hsix, Nat.mul_comm]

section
variable (s : State) (prog : List (Mode × Byte))

theorem State.completedAll_cfg : (s.completedAll prog).cfg = s.cfg := by
  induction prog generalizing s with
  | nil => rfl
  | cons q qs ih => exact ih _

theorem State.completedAll_ph (hp : s.ph = .idle) : (s.completedAll prog).ph = .idle := by
  induction prog generalizing s with
  | nil => exact hp
  | cons q qs ih => exact ih _ rfl

theorem State.completedAll_done (h : s.done = true ∨ prog ≠ []) : (s.completedAll prog).done = true := by
  induction prog generalizing s with
  | nil => exact h.resolve_right (not_not_intro rfl)
  | cons q qs ih => exact ih _ (.inl rfl)

theorem State.completedAll_trace :
    (s.completedAll prog).trace = s.trace ++ (programBytes s.cfg.masks prog).map okTxn := by
  induction prog generalizing s with
  | nil => exact (List.append_nil _).symm
  | cons q qs ih =>
    rw [State.completedAll, ih, programBytes_cons, List.map_append, ← List.append_assoc]
    rfl

theorem State.completedAll_rx : (s.completedAll prog).rx = receiveAll s.cfg.masks (programBytes s.cfg.masks prog) s.rx := by
  induction prog generalizing s with
  | nil => rfl
  | cons q qs ih =>
    rw [State.completedAll, ih, programBytes_cons, receiveAll_append]
    rfl

end

/-- Settles O46: the program's run is its requests' completions one after the other. -/
theorem programWritesInOrder : Obligations.ProgramWritesInOrder := by
  intro prog s rest hm hp h
  obtain ⟨n, hn⟩ := reaches_completedAll hm hp h
  have htrace := s.completedAll_trace prog
  refine ⟨n, _, hn, htrace, ?_, s.completedAll_ph prog hp, rfl, s.completedAll_cfg prog, fun hne => ?_⟩
  · rw [State.withInputs_trace, htrace, List.length_append, List.length_map, programBytes_length]
  · exact s.completedAll_done prog (.inr hne)

/-! ### The reference receiver of a program (40_send_byte.md R79) -/

section
variable {m : Masks} (hm : m.Ok) (d : Nibble) (md : Mode) (r : Receiver)
include hm

theorem lineHigh_en_encodeBus (en : Bool) : lineHigh m.en (encodeBus m d md en) = en :=
  congrArg Pins.enable (pinsOfBusByte m hm d md en)

theorem modeOf_encodeBus (en : Bool) : m.modeOf (encodeBus m d md en) = md := by
  have hrs : lineHigh m.rs (encodeBus m d md en) = decide (md = .data) := congrArg Pins.rs (pinsOfBusByte m hm d md en)
  rw [modeOf_eq_ofBool_lineHigh, hrs]
  cases md <;> rfl

/-- Of a pulse's three writes only the last makes the enable line fall. -/
theorem receiveAll_pulse (hr : lineHigh m.en r.line = false) :
    receiveAll m [encodeBus m d md false, encodeBus m d md true, encodeBus m d md false] r =
      receive m (encodeBus m d md false) { r with line := encodeBus m d md true } := by
  have hhigh := lineHigh_en_encodeBus hm d md true
  have hlow := lineHigh_en_encodeBus hm d md false
  have hsetup : receive m (encodeBus m d md false) r = { r with line := encodeBus m d md false } := by simp [receive, hr]
  have hrise : receive m (encodeBus m d md true) { r with line := encodeBus m d md false } =
      { r with line := encodeBus m d md true } := by
    simp [receive, hhigh]
  rw [receiveAll_cons, receiveAll_cons, receiveAll_cons, receiveAll_nil, hsetup, hrise]

/-- The falling line gives a first nibble. -/
theorem receive_first_nibble (hr : r.rxn = none) :
    receive m (encodeBus m d md false) { r with line := encodeBus m d md true } =
      { line := encodeBus m d md false, rxn := some (md, d), delivered := r.delivered } := by
  simp [receive, lineHigh_en_encodeBus hm, modeOf_encodeBus hm, extractLsb'_encodeBus hm, hr]

/-- The falling line gives a second nibble, and with it the byte. -/
theorem receive_second_nibble {md' : Mode} {nh : Nibble} (hr : r.rxn = some (md', nh)) :
    receive m (encodeBus m d md false) { r with line := encodeBus m d md true } =
      { line := encodeBus m d md false, rxn := none, delivered := r.delivered ++ [(md, nh ++ d)] } := by
  simp [receive, lineHigh_en_encodeBus hm, modeOf_encodeBus hm, extractLsb'_encodeBus hm, hr]

/-- A transfer's two pulses deliver its byte. -/
theorem receiveAll_transferBytes (b : Byte) (hline : lineHigh m.en r.line = false) (hrxn : r.rxn = none) :
    receiveAll m (transferBytes m b md) r =
      { line := encodeBus m (b.extractLsb' 0 4) md false, rxn := none, delivered := r.delivered ++ [(md, b)] } := by
  have hsplit : transferBytes m b md =
      [encodeBus m (b.extractLsb' 4 4) md false, encodeBus m (b.extractLsb' 4 4) md true, encodeBus m (b.extractLsb' 4 4) md false] ++
      [encodeBus m (b.extractLsb' 0 4) md false, encodeBus m (b.extractLsb' 0 4) md true, encodeBus m (b.extractLsb' 0 4) md false] :=
    transferBytes_eq_encodeBus hm b md
  rw [hsplit, receiveAll_append, receiveAll_pulse hm _ _ _ hline, receive_first_nibble hm _ _ _ hrxn,
    receiveAll_pulse hm _ _ _ (lineHigh_en_encodeBus hm _ _ _), receive_second_nibble hm _ _ _ rfl,
    extractLsb'_append_extractLsb'_byte]

/-- The receiver of a program's bytes, once it waits for a first nibble with the line low. -/
theorem receiveAll_programBytes (prog : List (Mode × Byte)) (hline : lineHigh m.en r.line = false) (hrxn : r.rxn = none) :
    (receiveAll m (programBytes m prog) r).rxn = none ∧
      (receiveAll m (programBytes m prog) r).delivered = r.delivered ++ prog := by
  induction prog generalizing r with
  | nil => exact ⟨hrxn, (List.append_nil _).symm⟩
  | cons q qs ih =>
    have hbyte := receiveAll_transferBytes hm q.1 r q.2 hline hrxn
    obtain ⟨hempty, hall⟩ := ih (receiveAll m (transferBytes m q.2 q.1) r) (by rw [hbyte]; exact lineHigh_en_encodeBus hm _ _ _)
      (by rw [hbyte])
    rw [programBytes_cons, receiveAll_append]
    exact ⟨hempty, hall.trans (by rw [hbyte, List.append_assoc]; rfl)⟩

end

/-- Settles O47: after the program's run the receiver has seen the program's bytes, which deliver its requests. -/
theorem receiverGetsProgram : Obligations.ReceiverGetsProgram := by
  intro prog s rest hm hp hline hrxn h
  obtain ⟨n, hn⟩ := reaches_completedAll hm hp h
  have hrx : ((s.completedAll prog).withInputs rest).rx = _ := s.completedAll_rx prog
  obtain ⟨hempty, hall⟩ := receiveAll_programBytes hm s.rx prog hline hrxn
  exact ⟨n, _, hn, rfl, hrx ▸ hempty, hrx ▸ hall⟩

end Sys2Proof.Machine

/-! ## The pulse sequencer (41_pulse_sequencer.md): what each kind of tick does, stretches of ticks, the minimum spacing of writes, when a step
answers, and the event-level machine. -/

namespace Sys2Proof.Machine

/-! ### The outputs (41_pulse_sequencer.md R99) -/

theorem State.busWr_eq_decide (s : State) : s.busWr = decide (s.ph.num ∈ [1, 3, 5, 7, 9, 11]) := by
  rw [Bool.eq_iff_iff, decide_eq_true_iff]
  exact s.ph.isWrite_iff_num

/-- Settles O11: each output is a flag, a latch or a function of `PH`, and `bus_wdata` has a value while `bus_wr` = 1. -/
theorem outputsFromStateOnly : Obligations.OutputsFromStateOnly := by
  intro s
  refine ⟨s.ready_eq_decide, s.busy_eq_decide, s.faulted_eq_decide, rfl, s.busWr_eq_decide, rfl, fun hw => ⟨rfl, ?_⟩,
    State.busWdata_of_not_busWr, fun _ => rfl⟩
  exact Option.ne_none_iff_exists'.mpr ⟨_, State.busWdata_of_busWr hw⟩

/-! ### One tick, case by case (41_pulse_sequencer.md R91 to R97) -/

section
variable {i : TickIn} {s : State} (hr : i.rst = false)
include hr

theorem tick_of_request (hp : s.ph = .idle) (hv : i.reqValid = true) : tick i s = s.accept i.reqMode i.reqValue := by
  rw [tick_of_idle hr hp, tickIdle, if_pos hv]

theorem tick_of_no_request (hp : s.ph = .idle) (hv : i.reqValid = false) : tick i s = s.clearDone := by
  rw [tick_of_idle hr hp, tickIdle, if_neg (Bool.eq_false_iff.mp hv)]

theorem tick_of_write_ok (hw : s.ph.isWrite = true) (ha : i.busAck = true) (he : i.busErr = false) :
    tick i s = (s.busOk (busData s.cfg.masks s.val s.mode s.ph)).enterWait := by
  rw [tick_of_write hr hw, tickWrite, if_pos ha, if_neg (Bool.eq_false_iff.mp he)]

theorem tick_of_write_err (hw : s.ph.isWrite = true) (ha : i.busAck = true) (he : i.busErr = true) :
    tick i s = s.takeTransmissionFailure (busData s.cfg.masks s.val s.mode s.ph) := by
  rw [tick_of_write hr hw, tickWrite, if_pos ha, if_pos he]

theorem tick_of_unanswered (hw : s.ph.isWrite = true) (ha : i.busAck = false) : tick i s = s.clearDone := by
  rw [tick_of_write hr hw, tickWrite, if_neg (Bool.eq_false_iff.mp ha)]

theorem tick_of_counting (hw : s.ph.isWait = true) (hc : s.cnt ≠ 0) : tick i s = { s with cnt := s.cnt - 1, done := false } := by
  rw [tick_of_wait hr hw, tickWait, if_neg hc]

theorem tick_of_wait_end (hw : s.ph.isWait = true) (hc : s.cnt = 0) :
    tick i s = { s with ph := s.ph.next, done := s.ph == .lWait3 } := by
  rw [tick_of_wait hr hw, tickWait, if_pos hc]

/-- Acceptance alone writes the operand latches (41_pulse_sequencer.md R91). -/
theorem tick_latches_of_ne_idle (hp : s.ph ≠ .idle) : (tick i s).val = s.val ∧ (tick i s).mode = s.mode := by
  rcases s.ph.kinds with h | h | h | h
  · exact absurd h hp
  · exact tick_latches hr (Phase.isWrite_inTransfer h)
  · exact tick_latches hr (Phase.isWait_inTransfer h)
  · rw [tick_of_fault hr h]; exact ⟨rfl, rfl⟩

/-- No idle tick gives `DONE`. -/
theorem tick_done_of_idle (hp : s.ph = .idle) : (tick i s).done = false := by
  cases hv : i.reqValid
  · rw [tick_of_no_request hr hp hv]; rfl
  · rw [tick_of_request hr hp hv]; rfl

end

theorem Phase.ne_idle_of_num {p : Phase} (h : p.num ≠ 0) : p ≠ .idle := h ∘ p.num_eq_zero.mpr

/-- Every wait phase but the last is followed by the phase of the next number. -/
theorem Phase.isWait_next_num {p : Phase} (hw : p.isWait = true) (h : p ≠ .lWait3) : p.next.num = p.num + 1 := by
  cases p
  case lWait3 => exact absurd rfl h
  case hWait1 | hWait2 | hWait3 | lWait1 | lWait2 => rfl
  all_goals exact absurd hw (by decide)

/-- Settles O13: the two idle ticks; elsewhere the latches are kept and the request port is not read. -/
theorem idleAcceptsRequest : Obligations.IdleAcceptsRequest := by
  refine ⟨fun i s hnum hr => ?_, fun i s hnum hr => ?_⟩
  · have hp := s.ph.num_eq_zero.mp hnum
    refine ⟨s.ready_iff.mpr hp, fun hv => ?_, tick_of_no_request hr hp⟩
    rw [tick_of_request hr hp hv]
    exact ⟨rfl, rfl⟩
  · have hp := Phase.ne_idle_of_num hnum
    obtain ⟨hval, hmode⟩ := tick_latches_of_ne_idle hr hp
    exact ⟨hval, hmode, tick_ignores_request (.inl hp)⟩

/-- Settles O14: the byte requested is the one traced and latched. -/
theorem writeCompletesOk : Obligations.WriteCompletesOk := by
  intro i s hnum hr ha he
  have hw := s.ph.isWrite_iff_num.mpr hnum
  rw [tick_of_write_ok hr hw ha he]
  exact ⟨_, State.busWdata_of_busWr hw, hw, rfl, rfl, Phase.isWrite_next_num hw⟩

/-- Settles O16: the failed write enters the fault state, where a run without reset changes nothing. -/
theorem failedWriteEntersFault : Obligations.FailedWriteEntersFault := by
  intro i s hnum hr ha he
  have hw := s.ph.isWrite_iff_num.mpr hnum
  rw [tick_of_write_err hr hw ha he]
  refine ⟨_, _, State.busWdata_of_busWr hw, rfl, fun is hrs => ?_⟩
  rw [ticks_of_fault hrs rfl rfl]
  exact ⟨rfl, rfl, rfl, rfl⟩

/-- Settles O19: the last wait leads to `IDLE`, whose ticks give no `DONE` and accept a request. -/
theorem completionPulsesDone : Obligations.CompletionPulsesDone := by
  intro i s hnum hc hr
  have hp := s.ph.num_eq_twelve.mp hnum
  have hend : tick i s = { s with ph := .idle, done := true } := by
    rw [tick_of_wait_end hr (by rw [hp]; rfl) hc, hp]; rfl
  have hidle : (tick i s).ph = .idle := by rw [hend]
  refine ⟨hend, (State.ready_iff _).mpr hidle, fun j => ⟨?_, fun hj hv => tick_of_request hj hidle hv⟩⟩
  cases hj : j.rst
  · exact tick_done_of_idle hj hidle
  · rw [tick_of_rst hj]; rfl

/-- Settles O22: one row for each kind of tick. -/
theorem transitionTable : Obligations.TransitionTable := by
  intro i s t
  have ht : t = tick i s := rfl
  have hwrite := s.ph.isWrite_iff_num.mpr
  have hwait := s.ph.isWait_iff_num.mpr
  refine ⟨fun hr => ?_, fun hr => ⟨fun hnum hv => ?_, fun hnum hv => ?_, fun hnum ha he => ?_, fun hnum ha he => ?_, fun hnum ha => ?_,
    fun hnum hc => ?_, fun hnum hc => ?_, fun hnum hc => ?_, fun hnum => ?_⟩⟩
  · rw [ht, tick_of_rst hr]; rfl
  · rw [ht, tick_of_request hr (s.ph.num_eq_zero.mp hnum) hv]; exact ⟨rfl, rfl, rfl⟩
  · rw [ht, tick_of_no_request hr (s.ph.num_eq_zero.mp hnum) hv]; exact hnum
  · rw [ht, tick_of_write_ok hr (hwrite hnum) ha he]
    exact ⟨Phase.isWrite_next_num (hwrite hnum), rfl, _, State.busWdata_of_busWr (hwrite hnum), rfl, rfl⟩
  · rw [ht, tick_of_write_err hr (hwrite hnum) ha he]
    exact ⟨rfl, _, State.busWdata_of_busWr (hwrite hnum), rfl⟩
  · rw [ht, tick_of_unanswered hr (hwrite hnum) ha]; rfl
  · rw [ht, tick_of_counting hr (hwait hnum) hc]; exact ⟨rfl, rfl⟩
  · have hw : s.ph.isWait = true := hwait (List.mem_append_left [12] hnum)
    have hlast : s.ph ≠ .lWait3 := by rintro hp; simp [hp, Phase.num] at hnum
    rw [ht, tick_of_wait_end hr hw hc]
    exact Phase.isWait_next_num hw hlast
  · have hp := s.ph.num_eq_twelve.mp hnum
    rw [ht, tick_of_wait_end hr (by rw [hp]; rfl) hc, hp]
    exact ⟨rfl, rfl⟩
  · rw [ht, tick_of_fault hr (s.ph.num_eq_thirteen.mp hnum)]; exact hnum

/-! ### What a tick does not read (41_pulse_sequencer.md R101) -/

/-- The bus's answer is read in a write phase only. -/
theorem tick_ignores_answer {s : State} (h : s.ph.isWrite = false) (i : TickIn) (a e : Bool) :
    tick { i with busAck := a, busErr := e } s = tick i s := by
  cases hr : i.rst
  · rcases s.ph.kinds with k | k | k | k
    · rw [tick_of_idle hr k, tick_of_idle rfl k]; rfl
    · exact absurd k (by simp [h])
    · rw [tick_of_wait hr k, tick_of_wait rfl k]
    · rw [tick_of_fault hr k, tick_of_fault rfl k]
  · rw [tick_of_rst hr, tick_of_rst rfl]

/-- `bus_err` is read together with `bus_ack` only. -/
theorem tick_ignores_busErr {i : TickIn} (ha : i.busAck = false) (s : State) (e : Bool) : tick { i with busErr := e } s = tick i s := by
  cases hw : s.ph.isWrite
  · exact tick_ignores_answer hw i i.busAck e
  · cases hr : i.rst
    · rw [tick_of_unanswered hr hw ha]; exact tick_of_unanswered rfl hw ha
    · rw [tick_of_rst hr, tick_of_rst rfl]

/-- Settles O21: the request port, the bus's answer and `bus_err` are each read in one place only. -/
theorem ignoredInputs : Obligations.IgnoredInputs := by
  refine fun i s => ⟨fun hnum => tick_ignores_request (.inl (Phase.ne_idle_of_num hnum)), fun hnum => ?_,
    fun ha e => tick_ignores_busErr ha s e⟩
  exact tick_ignores_answer (Bool.eq_false_iff.mpr (hnum ∘ s.ph.isWrite_iff_num.mp)) i

/-! ### Stretches of ticks that change nothing (41_pulse_sequencer.md R93, R98) -/

/-- Ticks that in the phase of `s` do nothing but clear `DONE`. -/
theorem ticks_eq_clearDone {is : List TickIn} {s : State} (hne : is ≠ [])
    (h : ∀ i ∈ is, ∀ u : State, u.ph = s.ph → tick i u = u.clearDone) : ticks is s = s.clearDone := by
  induction is generalizing s with
  | nil => exact absurd rfl hne
  | cons i is ih =>
    rw [ticks, h i (.head is) s rfl]
    cases is with
    | nil => rfl
    | cons j js => exact ih (s := s.clearDone) (List.cons_ne_nil j js) fun k hk => h k (.tail i hk)

/-- Settles O15: each such tick only clears `DONE`. -/
theorem unansweredWriteHangs : Obligations.UnansweredWriteHangs := by
  intro is s hnum hr ha hne
  have hw := s.ph.isWrite_iff_num.mpr hnum
  have hfault : s.ph ≠ .fault := by rintro hp; simp [hp] at hw
  rw [ticks_eq_clearDone hne fun i hi u hu => tick_of_unanswered (hr i hi) (hu ▸ hw) (ha i hi)]
  exact ⟨rfl, s.faulted_eq_false_iff.mpr hfault, Phase.isWrite_inTransfer hw, hw, rfl, rfl⟩

theorem not_finalEnd_of_fault {prog : List (Mode × Byte)} {is : List TickIn} {s : State} (hp : (ticks is s).ph = .fault) :
    ¬ FinalEnd prog is s := by
  rintro ⟨⟨-, hready, -⟩, -⟩
  simp [State.ready_of_ph_ne_idle, hp] at hready

/-- Settles O20: each tick without reset only clears `DONE`, and a run ends in `IDLE`. -/
theorem faultStateIsSticky : Obligations.FaultStateIsSticky := by
  refine ⟨fun is s hnum hr hne => ?_, fun prog is s hnum => not_finalEnd_of_fault ((Phase.num_eq_thirteen _).mp hnum)⟩
  have hp := s.ph.num_eq_thirteen.mp hnum
  rw [ticks_eq_clearDone hne fun i hi u hu => tick_of_fault (hr i hi) (hu.trans hp)]
  refine ⟨rfl, ?_, State.ready_of_ph_ne_idle ?_, s.faulted_iff.mpr hp⟩
  · exact congrArg Phase.isWrite hp
  · simp [hp]

/-! ### The wait phase (41_pulse_sequencer.md R95, R96, R104) -/

section
variable {is : List TickIn} {s : State} (hr : NoReset is) (hw : s.ph.isWait = true)
include hr hw

/-- A wait phase lasts as long as the counter is not used up. -/
theorem ticks_ph_of_wait (hlen : is.length ≤ s.cnt) : (ticks is s).ph = s.ph := by
  induction is generalizing s with
  | nil => rfl
  | cons i is ih =>
    obtain ⟨hri, hris⟩ := List.forall_mem_cons.mp hr
    rw [List.length_cons] at hlen
    rw [ticks, tick_of_counting hri hw (by omega)]
    exact ih hris hw (Nat.le_sub_one_of_lt hlen)

/-- And ends with the tick after it is. -/
theorem ticks_eq_waited (hlen : is.length = s.cnt + 1) : ticks is s = s.waited s.inputs := by
  induction is generalizing s with
  | nil => cases hlen
  | cons i is ih =>
    obtain ⟨hri, hris⟩ := List.forall_mem_cons.mp hr
    rw [List.length_cons, Nat.add_right_cancel_iff] at hlen
    rw [ticks]
    by_cases hc : s.cnt = 0
    · obtain rfl : is = [] := List.length_eq_zero_iff.mp (hlen.trans hc)
      rw [tick_of_wait_end hri hw hc, ticks, State.waited, hc]
    · rw [tick_of_counting hri hw hc]
      exact ih hris hw (by simp only; omega)

end

/-- Settles O18: a counting tick, the last tick, and the stretches of both. -/
theorem waitPhaseCountsDown : Obligations.WaitPhaseCountsDown := by
  refine ⟨fun i s hnum hr => ?_, fun is s hnum hcnt hr => ?_⟩
  · have hw := s.ph.isWait_iff_num.mpr hnum
    refine ⟨Phase.isWait_not_isWrite hw, tick_of_counting hr hw, fun hc hlast => ?_, fun j hj => ?_⟩
    · have hp : s.ph ≠ .lWait3 := hlast ∘ s.ph.num_eq_twelve.mpr
      rw [tick_of_wait_end hr hw hc, beq_eq_false_iff_ne.mpr hp]
      exact ⟨rfl, Phase.isWait_next_num hw hp, hc⟩
    · rw [tick_of_wait hj hw, tick_of_wait hr hw]
  · have hw := s.ph.isWait_iff_num.mpr hnum
    refine ⟨fun hlen => ticks_ph_of_wait hr hw (hcnt ▸ hlen), fun hlen => ?_⟩
    rw [ticks_eq_waited hr hw (hcnt ▸ hlen)]
    rfl

/-- Settles O25: a shorter stretch would still stand in the wait phase after the write. -/
theorem writesSpacedByWait : Obligations.WritesSpacedByWait := by
  intro i s is ⟨_, htime⟩ hw hr ha he hrs hnext
  have hwait : (tick i s).ph.isWait = true := by rw [tick_of_write_ok hr hw ha he]; exact Phase.isWrite_next hw
  have hcnt : (tick i s).cnt = s.cfg.waitTicks := by rw [tick_of_write_ok hr hw ha he]; rfl
  have hlen : s.cfg.waitTicks + 1 ≤ is.length := by
    by_contra hshort
    have hstay := ticks_ph_of_wait hrs hwait (by omega)
    rw [State.busWr, hstay, Phase.isWait_not_isWrite hwait] at hnext
    cases hnext
  exact ⟨hlen, htime.trans (Nat.mul_le_mul_right _ (by omega))⟩

/-! ### Requests and steps (41_pulse_sequencer.md R90, R101) -/

theorem exec_requestInstr_of_not_accepts {s : State} (h : s.accepts = false) (hv : s.nextIn.violation = none) (md : Mode) (b : Byte) :
    exec (requestInstr md b) s = .next s.advance := by
  rw [exec_requestInstr, State.sendRequest, h, if_neg Bool.false_ne_true, State.advance_present_of_not_accepts h,
    State.underPremises_advance hv]

/-- Settles O34: such a request is not accepted. -/
theorem unacceptedRequestIsIgnored : Obligations.UnacceptedRequestIsIgnored := by
  intro s v h hv
  have hacc : s.accepts = false := by
    refine Bool.eq_false_iff.mpr fun ha => ?_
    obtain ⟨hp, hr⟩ := s.accepts_iff.mp ha
    rcases h with hn | hrst
    · exact hn hp
    · simp [hr] at hrst
  exact ⟨exec_requestInstr_of_not_accepts hacc hv .command v, exec_requestInstr_of_not_accepts hacc hv .data v⟩

/-- Settles O41: a step is one tick, or the accepting tick and those of the transfer. -/
theorem stepIsTicks : Obligations.StepIsTicks := by
  intro s t h
  rcases step_cases h with rfl | ⟨rfl, -⟩
  · exact ⟨1, le_rfl, rfl⟩
  · obtain ⟨n, hn⟩ := runTransfer_eq_advanceN s.inputs.tail s.advance s.advance_inputs
    exact ⟨n + 1, Nat.succ_pos n, hn⟩

/-- A fetched instruction is a request, or the byte NT4 puts on the bus. -/
theorem State.fetch_instr_cases {s : State} {i : Instr} (h : s.fetch = .instr i) :
    (∃ md v, i = requestInstr md v) ∨ ∃ b, s.busWdata = some b ∧ decode s.cfg.masks (.bus8 b) = .ok i := by
  unfold State.fetch at h
  split at h; · cases h
  split at h
  · split at h <;> [skip; cases h]
    simp only [decode, TickIn.reqWord, decodeReq_encodeReq] at h
    injection h with h
    exact .inl ⟨_, _, h.symm⟩
  · split at h; · cases h
    rename_i b hb
    split at h <;> [skip; cases h]
    rename_i j hj
    injection h with h
    exact .inr ⟨b, hb, h ▸ hj⟩

/-- The instruction of the byte NT4 requests is one tick. -/
theorem exec_busByte {s : State} {b : Byte} {i : Instr} (hm : s.cfg.masks.Ok) (hb : s.busWdata = some b)
    (hi : decode s.cfg.masks (.bus8 b) = .ok i) : exec i s = s.underPremises s.advance := by
  have henc := encodeDecodeRoundTrip s.cfg.masks hm _ i hi
  cases i with
  | sendc v => cases henc
  | sendd v => cases henc
  | busbE0 d r =>
    injection henc with henc
    rw [exec_busbE0, henc, State.busWrite_of_requested hb]
  | busbE1 d r =>
    injection henc with henc
    rw [exec_busbE1, henc, State.busWrite_of_requested hb]

/-- Under admitted masks only a launch premise can stop a step. -/
theorem step_eq_underPremises {s : State} (hm : s.cfg.masks.Ok) : ∃ t, step s = s.underPremises t := by
  rcases State.fetch_hold_or_instr hm with hf | ⟨i, hf⟩
  · exact ⟨_, step_of_fetch_hold hf⟩
  · rw [step_of_fetch_instr hf]
    rcases State.fetch_instr_cases hf with ⟨md, v, rfl⟩ | ⟨b, hb, hi⟩
    · exact ⟨_, exec_requestInstr md v s⟩
    · exact ⟨_, exec_busByte hm hb hi⟩

/-- Settles O42: under the launch premises no coming tick violates one. -/
theorem stepAlwaysAnswers : Obligations.StepAlwaysAnswers := by
  intro s hm hx hready hdriver
  obtain ⟨t, ht⟩ := step_eq_underPremises hm
  exact ⟨t, ht.trans (State.underPremises_of_all t (violation_of_premises hx hready hdriver))⟩

/-! ### The event-level machine (41_pulse_sequencer.md R102) -/

/-- Where an event may happen. -/
def EState.Enabled (e : EState) : Label → Prop
  | .accept _ _ => e.ph = .idle
  | .wrOk => e.ph.isWrite = true
  | .wrErr _ => e.ph.isWrite = true
  | .wait d => e.ph.isWait = true ∧ tWaitMinPs ≤ d
  | .reset _ => True

/-- What an event does where it may happen. -/
def EState.effect (ms : Masks) (e : EState) : Label → EState
  | .accept m b => { e with val := b, mode := m, ph := .hSetup }
  | .wrOk =>
    { e with
      trace := e.trace ++ [okTxn (busData ms e.val e.mode e.ph)]
      xp := busData ms e.val e.mode e.ph
      ph := e.ph.next }
  | .wrErr x => { e with trace := e.trace ++ [errTxn (busData ms e.val e.mode e.ph)], xp := x, ph := .fault }
  | .wait _ => { e with ph := e.ph.next }
  | .reset x => { e with ph := .idle, xp := if e.ph.isWrite then x else e.xp }

theorem EState.step_of_enabled {e : EState} {l : Label} (h : e.Enabled l) (ms : Masks) : e.step ms l = some (e.effect ms l) := by
  cases l with
  | accept m b => exact if_pos h
  | wrOk => rw [EState.step, busByte_of_isWrite h]; rfl
  | wrErr x => rw [EState.step, busByte_of_isWrite h]; rfl
  | wait d => exact if_pos h
  | reset x => rfl

theorem EState.enabled_of_step {e e' : EState} {ms : Masks} {l : Label} (h : e.step ms l = some e') : e.Enabled l := by
  have hwrite : busByte ms e.val e.mode e.ph ≠ none → e.ph.isWrite = true :=
    fun hb => by_contra fun hn => hb (busByte_of_not_isWrite (Bool.eq_false_iff.mpr hn) ms e.val e.mode)
  cases l with
  | accept m b =>
    rw [EState.step] at h
    split at h
    · next hp => exact hp
    · cases h
  | wrOk => exact hwrite fun hb => by rw [EState.step, hb] at h; cases h
  | wrErr x => exact hwrite fun hb => by rw [EState.step, hb] at h; cases h
  | wait d =>
    rw [EState.step] at h
    split at h
    · next hp => exact hp
    · cases h
  | reset x => trivial

theorem EState.step_eq_some_iff (e e' : EState) (ms : Masks) (l : Label) :
    e.step ms l = some e' ↔ e.Enabled l ∧ e' = e.effect ms l := by
  constructor
  · intro h
    have hen := EState.enabled_of_step h
    rw [EState.step_of_enabled hen] at h
    exact ⟨hen, (Option.some.inj h).symm⟩
  · rintro ⟨hen, rfl⟩
    exact EState.step_of_enabled hen ms

/-! ### The event of each tick (41_pulse_sequencer.md R107) -/

theorem tickLabel_of_rst {i : TickIn} {s : State} (hr : i.rst = true) : tickLabel i s = some (.reset (Config.freeXp s.draws)) :=
  if_pos hr

section
variable {i : TickIn} {s : State} (hr : i.rst = false)
include hr

theorem tickLabel_of_request (hp : s.ph = .idle) (hv : i.reqValid = true) :
    tickLabel i s = some (.accept i.reqMode i.reqValue) := by
  simp [tickLabel, hr, s.ready_iff.mpr hp, hv]

theorem tickLabel_of_no_request (hp : s.ph = .idle) (hv : i.reqValid = false) : tickLabel i s = none := by
  simp [tickLabel, hr, s.ready_iff.mpr hp, hv]

/-- In a write phase the bus's answer is the event. -/
theorem tickLabel_of_write (hw : s.ph.isWrite = true) :
    tickLabel i s =
      if i.busAck then (if i.busErr then some (.wrErr (Config.freeXp s.draws)) else some .wrOk) else none := by
  simp [tickLabel, hr, State.ready_of_ph_ne_idle (Phase.ne_idle_of_isWrite hw), State.busWr, hw]

theorem tickLabel_of_wait (hw : s.ph.isWait = true) :
    tickLabel i s = if s.cnt = 0 then some (.wait (waitPs s.cfg)) else none := by
  have hready : s.ready = false := State.ready_of_ph_ne_idle (by rintro hp; simp [hp] at hw)
  simp [tickLabel, hr, hready, State.busWr, Phase.isWait_not_isWrite hw, hw]

theorem tickLabel_of_fault (hp : s.ph = .fault) : tickLabel i s = none := by
  simp [tickLabel, hr, State.ready_of_ph_ne_idle, State.busWr, hp]

end

/-- A wait phase is one event, at its last tick. -/
theorem tickLabels_of_wait {is : List TickIn} {s : State} (hr : NoReset is) (hw : s.ph.isWait = true) (hlen : is.length = s.cnt + 1) :
    tickLabels is s = [.wait (waitPs s.cfg)] := by
  induction is generalizing s with
  | nil => cases hlen
  | cons i is ih =>
    obtain ⟨hri, hris⟩ := List.forall_mem_cons.mp hr
    rw [List.length_cons, Nat.add_right_cancel_iff] at hlen
    rw [tickLabels, tickLabel_of_wait hri hw]
    by_cases hc : s.cnt = 0
    · obtain rfl : is = [] := List.length_eq_zero_iff.mp (hlen.trans hc)
      rw [if_pos hc]; rfl
    · rw [if_neg hc, tick_of_counting hri hw hc]
      exact ih hris hw (by simp only; omega)

/-! ### The two levels agree (41_pulse_sequencer.md R107) -/

/-- The end state of the events `ls`. -/
def EState.effects (ms : Masks) (ls : List Label) (e : EState) : EState := ls.foldl (EState.effect ms) e

section
variable {s : State} {e : EState} (h : Agrees s e)
include h

theorem Agrees.ph_eq : s.ph = e.ph := by
  obtain ⟨hph, -⟩ := h
  exact hph

/-- In a transfer both levels write the same byte. -/
theorem Agrees.busData_eq (hw : s.ph.isWrite = true) :
    busData s.cfg.masks s.val s.mode s.ph = busData s.cfg.masks e.val e.mode e.ph := by
  obtain ⟨hph, -, -, hlatch⟩ := h
  obtain ⟨hval, hmode⟩ := hlatch (Phase.isWrite_inTransfer hw)
  rw [hph, hval, hmode]

theorem Agrees.resetTick : Agrees s.resetTick (e.effect s.cfg.masks (.reset (Config.freeXp s.draws))) := by
  obtain ⟨hph, hxp, htrace, -⟩ := h
  exact ⟨rfl, by simp [EState.effect, hph, hxp], htrace, fun hb => absurd hb (by simp [State.busy])⟩

theorem Agrees.accept (m : Mode) (b : Byte) : Agrees (s.accept m b) (e.effect s.cfg.masks (.accept m b)) := by
  obtain ⟨-, hxp, htrace, -⟩ := h
  exact ⟨rfl, hxp, htrace, fun _ => ⟨rfl, rfl⟩⟩

theorem Agrees.writeOk (hw : s.ph.isWrite = true) :
    Agrees (s.busOk (busData s.cfg.masks s.val s.mode s.ph)).enterWait (e.effect s.cfg.masks .wrOk) := by
  have hbyte := h.busData_eq hw
  obtain ⟨hph, -, htrace, hlatch⟩ := h
  refine ⟨congrArg Phase.next hph, hbyte, ?_, fun _ => hlatch (Phase.isWrite_inTransfer hw)⟩
  simp [EState.effect, htrace, hbyte]

theorem Agrees.writeErr (hw : s.ph.isWrite = true) :
    Agrees (s.takeTransmissionFailure (busData s.cfg.masks s.val s.mode s.ph))
      (e.effect s.cfg.masks (.wrErr (Config.freeXp s.draws))) := by
  have hbyte := h.busData_eq hw
  obtain ⟨-, -, htrace, -⟩ := h
  refine ⟨rfl, rfl, ?_, fun hb => absurd hb (by simp [State.busy])⟩
  simp [EState.effect, htrace, hbyte]

theorem Agrees.waitEnd (hw : s.ph.isWait = true) (d : Nat) :
    Agrees { s with ph := s.ph.next, done := s.ph == .lWait3 } (e.effect s.cfg.masks (.wait d)) := by
  obtain ⟨hph, hxp, htrace, hlatch⟩ := h
  exact ⟨congrArg Phase.next hph, hxp, htrace, fun _ => hlatch (Phase.isWait_inTransfer hw)⟩

/-- A tick keeps the agreement with what its event does; one that is erased changes nothing the event level sees. -/
theorem Agrees.after_tick (i : TickIn) : Agrees (tick i s) (EState.effects s.cfg.masks (tickLabel i s).toList e) := by
  rcases tick_cases i s with ⟨hr, k⟩ | ⟨hr, hp, k⟩ | ⟨hr, hp, hv, k⟩ | ⟨hr, hp, hv, k⟩ | ⟨hr, hw, ha, he, k⟩ | ⟨hr, hw, ha, he, k⟩ |
    ⟨hr, hw, ha, k⟩ | ⟨hr, hw, hc, k⟩ | ⟨hr, hw, hc, k⟩ <;> rw [k]
  · rw [tickLabel_of_rst hr]; exact h.resetTick
  · rw [tickLabel_of_fault hr hp]; exact h
  · rw [tickLabel_of_request hr hp hv]; exact h.accept _ _
  · rw [tickLabel_of_no_request hr hp hv]; exact h
  · rw [tickLabel_of_write hr hw, ha, he]; exact h.writeOk hw
  · rw [tickLabel_of_write hr hw, ha, he]; exact h.writeErr hw
  · rw [tickLabel_of_write hr hw, ha]; exact h
  · rw [tickLabel_of_wait hr hw, if_neg hc]; exact h
  · rw [tickLabel_of_wait hr hw, if_pos hc]; exact h.waitEnd hw (waitPs s.cfg)

/-- The event of a tick may happen, a wait under R9's constraint. -/
theorem Agrees.enabled {i : TickIn} {l : Label} (ht : s.cfg.TimingOk) (hl : tickLabel i s = some l) : e.Enabled l := by
  have hph := h.ph_eq
  have hwrite : s.ph.isWrite = true → e.ph.isWrite = true := fun hw => hph ▸ hw
  rcases tick_cases i s with ⟨hr, -⟩ | ⟨hr, hp, -⟩ | ⟨hr, hp, hv, -⟩ | ⟨hr, hp, hv, -⟩ | ⟨hr, hw, ha, he, -⟩ | ⟨hr, hw, ha, he, -⟩ |
    ⟨hr, hw, ha, -⟩ | ⟨hr, hw, hc, -⟩ | ⟨hr, hw, hc, -⟩
  · rw [tickLabel_of_rst hr] at hl; cases hl; trivial
  · rw [tickLabel_of_fault hr hp] at hl; cases hl
  · rw [tickLabel_of_request hr hp hv] at hl; cases hl; exact hph.symm.trans hp
  · rw [tickLabel_of_no_request hr hp hv] at hl; cases hl
  · rw [tickLabel_of_write hr hw, ha, he] at hl; cases hl; exact hwrite hw
  · rw [tickLabel_of_write hr hw, ha, he] at hl; cases hl; exact hwrite hw
  · rw [tickLabel_of_write hr hw, ha] at hl; cases hl
  · rw [tickLabel_of_wait hr hw, if_neg hc] at hl; cases hl
  · rw [tickLabel_of_wait hr hw, if_pos hc] at hl; cases hl
    obtain ⟨-, htime⟩ := ht
    exact ⟨hph ▸ hw, htime.trans (Nat.mul_le_mul_right _ (Nat.le_succ _))⟩

end

theorem Agrees.after_ticks {s : State} {e : EState} (h : Agrees s e) (is : List TickIn) :
    Agrees (ticks is s) (EState.effects s.cfg.masks (tickLabels is s) e) := by
  induction is generalizing s e with
  | nil => exact h
  | cons i is ih =>
    have hrest := ih (h.after_tick i)
    rw [tick_cfg] at hrest
    rw [ticks, tickLabels, EState.effects, List.foldl_append]
    exact hrest

/-- The event of a tick runs. -/
theorem Agrees.run_tickLabel {s : State} {e : EState} (h : Agrees s e) (ht : s.cfg.TimingOk) (i : TickIn) :
    EState.run s.cfg.masks (tickLabel i s).toList e = some (EState.effects s.cfg.masks (tickLabel i s).toList e) := by
  cases hl : tickLabel i s with
  | none => rfl
  | some l => simp [EState.run, EState.step_of_enabled (h.enabled ht hl), EState.effects]

theorem Agrees.run_tickLabels {s : State} {e : EState} (h : Agrees s e) (ht : s.cfg.TimingOk) (is : List TickIn) :
    EState.run s.cfg.masks (tickLabels is s) e = some (EState.effects s.cfg.masks (tickLabels is s) e) := by
  induction is generalizing s e with
  | nil => rfl
  | cons i is ih =>
    have hrest := ih (h.after_tick i) (by rwa [tick_cfg])
    rw [tick_cfg] at hrest
    rw [tickLabels, EState.run_append, h.run_tickLabel ht, Option.bind_some, hrest, EState.effects, EState.effects, EState.effects,
      List.foldl_append]

/-- Settles O49: the events of the ticks run, and each tick keeps the agreement. -/
theorem ticksProjectOntoEvents : Obligations.TicksProjectOntoEvents :=
  fun is _ _ ht h => ⟨_, h.run_tickLabels ht is, h.after_ticks is⟩

theorem tickLabels_singleton (i : TickIn) (s : State) : tickLabels [i] s = (tickLabel i s).toList := by
  rw [tickLabels, tickLabels, List.append_nil]

/-- An event that may happen is the event of some stretch of ticks: one tick, or a whole wait phase. -/
theorem Agrees.exists_tickLabels {s : State} {e : EState} {l : Label} (h : Agrees s e) (hen : e.Enabled l)
    (hwait : ∀ d, l = .wait d → d = waitPs s.cfg) (hdraw : ∀ x, l = .wrErr x ∨ l = .reset x → x = Config.freeXp s.draws) :
    ∃ is, tickLabels is s = [l] := by
  have hph := h.ph_eq
  cases l with
  | accept m b =>
    have hp : s.ph = .idle := hph.trans hen
    refine ⟨[{ TickIn.quiet with reqValid := true, reqMode := m, reqValue := b }], ?_⟩
    rw [tickLabels_singleton, tickLabel_of_request rfl hp rfl]; rfl
  | wrOk =>
    have hw : s.ph.isWrite = true := hph ▸ hen
    refine ⟨[{ TickIn.quiet with busAck := true }], ?_⟩
    rw [tickLabels_singleton, tickLabel_of_write rfl hw]; rfl
  | wrErr x =>
    have hw : s.ph.isWrite = true := hph ▸ hen
    refine ⟨[{ TickIn.quiet with busAck := true, busErr := true }], ?_⟩
    rw [tickLabels_singleton, tickLabel_of_write rfl hw, hdraw x (.inl rfl)]; rfl
  | wait d =>
    obtain ⟨hw, -⟩ := hen
    refine ⟨List.replicate (s.cnt + 1) TickIn.quiet, ?_⟩
    rw [tickLabels_of_wait (fun i hi => by rw [List.eq_of_mem_replicate hi]; rfl) (hph ▸ hw) List.length_replicate, hwait d rfl]
  | reset x =>
    refine ⟨[{ TickIn.quiet with rst := true }], ?_⟩
    rw [tickLabels_singleton, tickLabel_of_rst rfl, hdraw x (.inr rfl)]; rfl

/-- Settles O50: the ticks whose one event it is end in agreement with what the event does. -/
theorem eventsAreRealizedByTicks : Obligations.EventsAreRealizedByTicks := by
  intro l s e e' h hstep hwait hdraw
  obtain ⟨hen, rfl⟩ := (EState.step_eq_some_iff e e' s.cfg.masks l).mp hstep
  obtain ⟨is, his⟩ := h.exists_tickLabels hen hwait hdraw
  have hend := h.after_ticks is
  rw [his] at hend
  exact ⟨is, his, hend⟩

end Sys2Proof.Machine

/-! ## The requester (42_command_macros.md): what its macros expand to and in which order it may use them, what it presents on the request
port, and its run beside NT4, up to a fault. -/

namespace Sys2Proof

/-! ### The expansions (42_command_macros.md R125, R127) -/

theorem glyphSetWf_iff (set : List (List Byte)) : glyphSetWf set = true ↔ set.length = 8 ∧ ∀ g ∈ set, g.length = 8 := by
  simp [glyphSetWf]

theorem Macro.expand_loadGlyphs (k : MacroConsts) {set : List (List Byte)} (h : glyphSetWf set = true) :
    Macro.expand k (.loadGlyphs set) = .ok (.send .command k.setCgram0 :: set.flatten.map (Item.send .data)) := if_pos h

theorem requestsOf_loadGlyphs_length {set : List (List Byte)} (h : glyphSetWf set = true) (c : Byte) :
    (requestsOf (.send .command c :: set.flatten.map (Item.send .data))).length = 65 := by
  rw [requestsOf_send_cons, requestsOf_map_send, List.length_cons, List.length_map, glyphSetWf_length h]

/-- Settles O51: the 64 rows follow the one command; each of the 65 bytes is six writes and six waits. -/
theorem loadGlyphsExpansion : Obligations.LoadGlyphsExpansion := by
  intro set hset hrows
  have hwf : glyphSetWf set = true := (glyphSetWf_iff set).mpr ⟨hset, hrows⟩
  refine ⟨_, Macro.expand_loadGlyphs _ hwf, ?_, requestsOf_loadGlyphs_length hwf _, ?_, ?_, by decide⟩
  · rw [requestsOf_send_cons, requestsOf_map_send]; rfl
  · rw [busWritesOf, requestsOf_loadGlyphs_length hwf]
  · rw [minPsOf_cons, minPsOf_map_send, glyphSetWf_length hwf, Item.minPs, ← Nat.add_mul]

theorem requestsOf_map_charItem (s : List Char) :
    requestsOf (s.map charItem) = s.map fun c => (Mode.data, BitVec.ofNat 8 c.toNat) := by
  have h : s.map charItem = (s.map fun c => BitVec.ofNat 8 c.toNat).map (Item.send .data) := by
    rw [List.map_map]; rfl
  rw [h, requestsOf_map_send, List.map_map]; rfl

theorem Macro.expand_text_of_printable (k : MacroConsts) {s : List Char} (h : s.all printable = true) :
    Macro.expand k (.text s) = .ok (s.map charItem) := if_pos h

theorem Macro.expand_text_of_not_printable (k : MacroConsts) {s : List Char} (h : ¬ s.all printable = true) :
    Macro.expand k (.text s) = .error .notPrintable := if_neg h

/-- Settles O52: one request for each character, whose code fits in a byte because it is printable. -/
theorem textExpansion : Obligations.TextExpansion := by
  intro k s
  constructor
  · intro h
    refine ⟨_, Macro.expand_text_of_printable k ((all_printable_iff s).mpr h), requestsOf_map_charItem s, ?_, ?_⟩
    · rw [requestsOf_map_charItem, List.map_map]
      refine List.map_congr_left fun c hc => ?_
      obtain ⟨-, hle⟩ := h c hc
      exact (BitVec.toNat_ofNat c.toNat 8).trans (Nat.mod_eq_of_lt (by omega))
    · rw [busWritesOf, requestsOf_map_charItem, List.length_map]
  · rintro ⟨c, hc, hout⟩
    refine Macro.expand_text_of_not_printable k fun hall => ?_
    have := (all_printable_iff s).mp hall c hc
    omega

/-! ### The address pointer after `LOADGLYPHS` (42_command_macros.md R130) -/

/-- Only `SETPOS` leaves that state. -/
theorem Driver.next_pointerInCgram {m : Macro} {d : Driver} (h : ∀ r c, m ≠ .setPos r c)
    (hn : Driver.next .pointerInCgram m = .ok d) : d = .pointerInCgram := by
  cases m with
  | setPos r c => exact absurd rfl (h r c)
  | text s => cases hn
  | code c => cases hn
  | init => cases hn; rfl
  | clear => cases hn; rfl
  | loadGlyphs set => cases hn; rfl
  | delay => cases hn; rfl

/-- A list without `SETPOS` does not let in what that state refuses. -/
theorem Driver.run_pointerInCgram_refused {m : Macro} {e : MacroRefusal} (hm : Driver.next .pointerInCgram m = .error e)
    {ms : List Macro} (hms : ∀ r c, Macro.setPos r c ∉ ms) : ∃ e', Driver.run .pointerInCgram (ms ++ [m]) = .error e' := by
  induction ms with
  | nil => exact ⟨e, by simp [Driver.run, hm]⟩
  | cons a ms ih =>
    simp only [List.mem_cons, not_or, forall_and] at hms
    obtain ⟨ha, hrest⟩ := hms
    cases hn : Driver.next .pointerInCgram a with
    | error e' => exact ⟨e', by simp [Driver.run, hn]⟩
    | ok d =>
      obtain rfl := Driver.next_pointerInCgram (fun r c h => ha r c h.symm) hn
      simpa [Driver.run, hn] using ih hrest

/-- Settles O53: `LOADGLYPHS` leads from `Ready` to the state that refuses both, and only a `SETPOS` leaves it. -/
theorem positionRequiredAfterGlyphs : Obligations.PositionRequiredAfterGlyphs := by
  intro set ms m hms hm
  have hrefused : Driver.next .pointerInCgram m = .error .positionRequired := by
    rcases hm with ⟨s, rfl⟩ | ⟨c, rfl⟩ <;> rfl
  exact Driver.run_pointerInCgram_refused hrefused hms

end Sys2Proof

namespace Sys2Proof.Machine

/-! ### What a tick takes up and leaves behind (41_pulse_sequencer.md R91, R97) -/

/-- No request is accepted by a busy or faulted NT4, and none where none is presented. -/
theorem acceptedOf_tickLabel_eq_nil {i : TickIn} {s : State} (h : s.ready = false ∨ i.reqValid = false) :
    acceptedOf (tickLabel i s).toList = [] := by
  rcases h with h | h <;> simp only [tickLabel, h, Bool.false_eq_true, if_false] <;> split_ifs <;> rfl

/-- `DONE` comes with the return to idle. -/
theorem tick_ready_of_done {i : TickIn} {s : State} (h : (tick i s).done = true) : (tick i s).ready = true := by
  rw [State.ready_iff]
  rcases tick_cases i s with ⟨-, k⟩ | ⟨-, -, k⟩ | ⟨-, -, -, k⟩ | ⟨-, -, -, k⟩ | ⟨-, -, -, -, k⟩ | ⟨-, -, -, -, k⟩ |
    ⟨-, -, -, k⟩ | ⟨-, -, -, k⟩ | ⟨-, -, -, k⟩ <;> simp [k] at h ⊢
  simp [h, Phase.next]

/-- A transfer is in progress after a tick only if it was before or the tick accepted a request. -/
theorem tick_busy_cases {i : TickIn} {s : State} (h : (tick i s).busy = true) :
    i.rst = false ∧ (s.busy = true ∨ (s.ready = true ∧ i.reqValid = true)) := by
  rw [State.busy] at h
  rcases tick_cases i s with ⟨-, k⟩ | ⟨hr, hp, k⟩ | ⟨hr, hp, hv, -⟩ | ⟨hr, hp, -, k⟩ | ⟨hr, hw, -⟩ | ⟨hr, hw, -⟩ |
    ⟨hr, hw, -⟩ | ⟨hr, hw, -⟩ | ⟨hr, hw, -⟩
  · simp [k] at h
  · simp [k, hp] at h
  · exact ⟨hr, .inr ⟨s.ready_iff.mpr hp, hv⟩⟩
  · simp [k, hp] at h
  · exact ⟨hr, .inl (Phase.isWrite_inTransfer hw)⟩
  · exact ⟨hr, .inl (Phase.isWrite_inTransfer hw)⟩
  · exact ⟨hr, .inl (Phase.isWrite_inTransfer hw)⟩
  · exact ⟨hr, .inl (Phase.isWait_inTransfer hw)⟩
  · exact ⟨hr, .inl (Phase.isWait_inTransfer hw)⟩

theorem State.ready_of_not_busy_not_faulted {s : State} (hb : s.busy = false) (hf : s.faulted = false) : s.ready = true := by
  rw [State.busy] at hb
  rw [State.faulted_eq_false_iff] at hf
  rcases s.ph.kinds with h | h | h | h
  · exact s.ready_iff.mpr h
  · simp [Phase.isWrite_inTransfer h] at hb
  · simp [Phase.isWait_inTransfer h] at hb
  · exact absurd h hf

theorem State.not_faulted_of_busy {s : State} (h : s.busy = true) : s.faulted = false := by
  rw [State.faulted_eq_false_iff]
  intro hp
  simp [State.busy, hp] at h

theorem State.not_ready_of_busy {s : State} (h : s.busy = true) : s.ready = false :=
  State.ready_of_ph_ne_idle (by intro hp; simp [State.busy, hp] at h)

/-! ### What the requester presents (42_command_macros.md R120, R131) -/

section
variable {r : Requester} {s : State} {m : Mode} {v : Byte}

/-- It presents the first request still to send, and only where there is no fault and nothing to be completed. -/
theorem Requester.next?_eq_some_iff :
    r.next? s = some (m, v) ↔ s.faulted = false ∧ r.pending = false ∧ r.items.head? = some (.send m v) := by
  unfold Requester.next?
  cases hf : s.faulted <;> cases hp : r.pending
  case false.false => rcases r.items with _ | ⟨_ | _, rest⟩ <;> simp
  all_goals simp

theorem Requester.next?_of_faulted (h : s.faulted = true) : r.next? s = none := by simp [Requester.next?, h]

theorem Requester.drive_of_some (h : r.next? s = some (m, v)) (i : TickIn) :
    r.drive s i = { i with reqValid := true, reqMode := m, reqValue := v } := by simp [Requester.drive, h]

/-! ### The requester after a tick -/

theorem Requester.after_of_faulted {i : TickIn} (hr : i.rst = false) (hf : s.faulted = true) :
    r.after i s = { r with driver := .uninitialized } := by simp [Requester.after, hr, hf]

theorem Requester.after_of_pending {i : TickIn} (hr : i.rst = false) (hf : s.faulted = false) (hp : r.pending = true) :
    r.after i s = { r with pending := !s.done } := by simp [Requester.after, hr, hf, hp]

/-- The request it presents leaves it when NT4 is ready for it. -/
theorem Requester.after_of_accepted {i : TickIn} (hr : i.rst = false) (hs : s.ready = true) (hn : r.next? s = some (m, v)) :
    r.after i s = { r with items := r.items.tail, pending := true, settle := 0 } := by
  obtain ⟨hf, hp, hhead⟩ := Requester.next?_eq_some_iff.mp hn
  obtain ⟨rest, hitems⟩ := List.head?_eq_some_iff.mp hhead
  simp [Requester.after, hr, hf, hp, hs, hitems]

/-- Nothing else takes a request from it: a tick at which NT4 is not ready changes nothing, and a settle delay is no request. -/
theorem Requester.requestsOf_after {i : TickIn} (hr : i.rst = false) (h : s.ready = false ∨ r.next? s = none) :
    requestsOf (r.after i s).items = requestsOf r.items := by
  cases hf : s.faulted
  case true => rw [Requester.after_of_faulted hr hf]
  cases hp : r.pending
  case true => rw [Requester.after_of_pending hr hf hp]
  cases hs : s.ready
  case false => simp [Requester.after, hr, hf, hp, hs]
  have hn : r.next? s = none := by simpa [hs] using h
  rcases hitems : r.items with _ | ⟨_ | _, rest⟩
  · simp [Requester.after, hr, hf, hp, hs, hitems]
  · simp [Requester.next?, hf, hp, hitems] at hn
  · by_cases hset : r.settle < s.cfg.waitTicks <;> simp [Requester.after, hr, hf, hp, hs, hitems, hset]

end

/-! ### NT4 and its requester -/

@[simp] theorem System.tick_req (y : System) (i : TickIn) : (y.tick i).req = y.req.after i y.nt4 := rfl

@[simp] theorem System.inputs_rst (y : System) (i : TickIn) : (y.inputs i).rst = i.rst := by
  unfold System.inputs Requester.drive
  split <;> rfl

@[simp] theorem System.inputs_reqValid (y : System) (i : TickIn) : (y.inputs i).reqValid = (y.req.next? y.nt4).isSome := by
  unfold System.inputs Requester.drive
  split <;> simp [*]

/-- The event of a tick at which a ready NT4 is presented a request. -/
theorem System.tickLabel_of_presented {y : System} {i : TickIn} {m : Mode} {v : Byte} (hr : i.rst = false)
    (hs : y.nt4.ready = true) (hn : y.req.next? y.nt4 = some (m, v)) :
    tickLabel (y.inputs i) y.nt4 = some (.accept m v) := by
  rw [System.inputs, Requester.drive_of_some hn]
  exact tickLabel_of_request hr (y.nt4.ready_iff.mp hs) rfl

/-- A request leaves the requester at the tick that accepts it, and at no other. -/
theorem System.accepted_append_requestsOf_tick (y : System) {i : TickIn} (hr : i.rst = false) :
    acceptedOf (tickLabel (y.inputs i) y.nt4).toList ++ requestsOf (y.tick i).req.items = requestsOf y.req.items := by
  by_cases h : y.nt4.ready = false ∨ y.req.next? y.nt4 = none
  · have hnone : acceptedOf (tickLabel (y.inputs i) y.nt4).toList = [] :=
      acceptedOf_tickLabel_eq_nil (h.imp_right fun hn => by simp [hn])
    rw [hnone, List.nil_append, System.tick_req, Requester.requestsOf_after hr h]
  · obtain ⟨hs, hn⟩ := not_or.mp h
    rw [Bool.not_eq_false] at hs
    obtain ⟨⟨m, v⟩, hmv⟩ := Option.ne_none_iff_exists'.mp hn
    obtain ⟨-, -, hhead⟩ := Requester.next?_eq_some_iff.mp hmv
    obtain ⟨rest, hitems⟩ := List.head?_eq_some_iff.mp hhead
    rw [System.tickLabel_of_presented hr hs hmv, System.tick_req, Requester.after_of_accepted hr hs hmv, hitems]
    rfl

/-- Settles O54, by induction on the run. -/
theorem requesterSendsInOrder : Obligations.RequesterSendsInOrder := by
  intro is
  induction is with
  | nil => exact fun y _ => rfl
  | cons i is ih =>
    intro y hr
    obtain ⟨hi, his⟩ := List.forall_mem_cons.mp hr
    rw [System.accepted, System.run, List.append_assoc, ih _ his, System.accepted_append_requestsOf_tick y hi]

/-! ### One request at a time (42_command_macros.md R120) -/

/-- The transfer in progress is the requester's own, and `DONE` is 1 only while NT4 is ready. -/
structure System.Awaits (y : System) : Prop where
  busyPending : y.nt4.busy = true → y.req.pending = true
  doneReady   : y.nt4.done = true → y.nt4.ready = true

theorem System.Awaits.tick {y : System} (h : y.Awaits) (i : TickIn) : (y.tick i).Awaits where
  doneReady := tick_ready_of_done
  busyPending hb := by
    obtain ⟨hr, hcases⟩ := tick_busy_cases hb
    rw [System.inputs_rst] at hr
    rw [System.tick_req]
    rcases hcases with hbusy | ⟨hs, hv⟩
    · have hdone : y.nt4.done = false :=
        Bool.eq_false_iff.mpr fun hd => by simpa [State.not_ready_of_busy hbusy] using h.doneReady hd
      rw [Requester.after_of_pending hr (State.not_faulted_of_busy hbusy) (h.busyPending hbusy), hdone]; rfl
    · rw [System.inputs_reqValid] at hv
      obtain ⟨⟨m, v⟩, hmv⟩ := Option.isSome_iff_exists.mp hv
      rw [Requester.after_of_accepted hr hs hmv]

theorem System.Awaits.run {y : System} (h : y.Awaits) (is : List TickIn) : (System.run is y).Awaits := by
  induction is generalizing y with
  | nil => exact h
  | cons i is ih => exact ih (h.tick i)

/-- Settles O57: the two facts are kept, and where the requester presents a request they leave NT4 no phase but idle. -/
theorem requesterAwaitsCompletion : Obligations.RequesterAwaitsCompletion := by
  intro is y hbusy hdone z
  have hz : z.Awaits := System.Awaits.run ⟨hbusy, hdone⟩ is
  refine ⟨hz.busyPending, hz.doneReady, fun i hv => ?_⟩
  rw [System.inputs_reqValid] at hv
  obtain ⟨⟨m, v⟩, hmv⟩ := Option.isSome_iff_exists.mp hv
  obtain ⟨hf, hp, hhead⟩ := Requester.next?_eq_some_iff.mp hmv
  have hnb : z.nt4.busy = false := Bool.eq_false_iff.mpr fun hb => by simpa [hp] using hz.busyPending hb
  have hs : z.nt4.ready = true := State.ready_of_not_busy_not_faulted hnb hf
  exact ⟨hnb, hs, fun hr => ⟨m, v, hhead, System.tickLabel_of_presented hr hs hmv⟩⟩

/-! ### After a fault (42_command_macros.md R131) -/

/-- The fault state, the trace and what is still to send stay. -/
theorem System.run_of_faulted {is : List TickIn} {y : System} (hf : y.nt4.faulted = true) (hr : NoReset is) :
    (System.run is y).nt4.faulted = true ∧ (System.run is y).nt4.trace = y.nt4.trace ∧
      (System.run is y).req.items = y.req.items := by
  induction is generalizing y with
  | nil => exact ⟨hf, rfl, rfl⟩
  | cons i is ih =>
    obtain ⟨hi, his⟩ := List.forall_mem_cons.mp hr
    have htick : (y.tick i).nt4 = y.nt4.clearDone := tick_of_fault (by rwa [System.inputs_rst]) (y.nt4.faulted_iff.mp hf)
    have hitems : (y.tick i).req.items = y.req.items := by rw [System.tick_req, Requester.after_of_faulted hi hf]
    obtain ⟨hf', htrace, hkept⟩ := ih (y := y.tick i) (by rw [htick]; exact hf) his
    exact ⟨hf', by rw [System.run, htrace, htick, State.clearDone_trace], hkept.trans hitems⟩

theorem System.load_of_faulted {y : System} (h : y.nt4.faulted = true) (k : MacroConsts) (m : Macro) :
    y.load k m = .error .transmissionFailed := if_pos h

/-- Settles O58: the fault state stays, and in it the requester presents nothing and takes up nothing. -/
theorem requesterStopsAtFault : Obligations.RequesterStopsAtFault := by
  intro is y hy hr z
  obtain ⟨hf, htrace, hitems⟩ := System.run_of_faulted hy hr
  refine ⟨hf, htrace, hitems, fun i => ?_, System.load_of_faulted hf⟩
  rw [System.inputs_reqValid, Requester.next?_of_faulted hf]; rfl

end Sys2Proof.Machine

/-! ## Violated launch premises (60_exceptions.md R141, R150): a tick on a bus that is not set up, or with a second agent on the request
port. -/

namespace Sys2Proof.Machine

/-! ### The premise a tick violates, where no other agent writes 0x27 -/

theorem TickIn.violation_of_not_busReady {i : TickIn} (ho : i.otherWrite = none) (hr : i.rst = false) (hb : i.busReady = false) :
    i.violation = some .busNotReady := by
  simp [TickIn.violation, ho, hr, hb]

/-- The bus is looked at before the request port. -/
theorem TickIn.violation_of_otherRequest {i : TickIn} (ho : i.otherWrite = none) (hb : i.rst = false → i.busReady = true)
    (hq : i.otherRequest ≠ none) : i.violation = some .notOneRequester := by
  have hset : (!i.rst && !i.busReady) = false := by
    cases hr : i.rst
    · simp [hb hr]
    · rfl
  simp [TickIn.violation, ho, hset, Option.isSome_iff_ne_none.mpr hq]

/-! ### The step at such a tick -/

/-- Under admitted masks whatever a step runs uses up the next tick, so it is refused with the premise that tick violates. -/
theorem step_refused {s : State} {x : Refusal} (hm : s.cfg.masks.Ok) (h : s.nextIn.violation = some x) : step s = .refused x := by
  rcases State.fetch_hold_or_instr hm with hf | ⟨i, hf⟩
  · rw [step_of_fetch_hold hf, State.advance_refused h]
  · rw [step_of_fetch_instr hf]
    rcases State.fetch_instr_cases hf with ⟨md, v, rfl⟩ | ⟨b, hb, hi⟩
    · exact exec_requestInstr_refused h md v
    · rw [exec_busByte hm hb hi, State.advance_refused h]

/-- Settles O60: either case names the premise the next tick violates, and requests, the requested byte and the step all use that tick. -/
theorem violatedPremiseIsRefused : Obligations.ViolatedPremiseIsRefused := by
  intro s x ho hcase
  have h : s.nextIn.violation = some x := by
    rcases hcase with ⟨hr, hb, rfl⟩ | ⟨hb, hq, rfl⟩
    · exact TickIn.violation_of_not_busReady ho hr hb
    · exact TickIn.violation_of_otherRequest ho hb hq
  exact ⟨exec_requestInstr_refused h, fun d r => ⟨State.busWrite_refused h, State.busWrite_refused h⟩, (step_refused · h)⟩

end Sys2Proof.Machine

/-! ## Reset and timing (70_reset_and_hazards.md): what a reset tick does, the ticks a transfer takes, that an answered transfer ends, and
the end of a served program's run. -/

namespace Sys2Proof.Machine

/-! ### A reset tick (70_reset_and_hazards.md R160, R162) -/

/-- Settles O23: the reset tick reads no other input and leads to `IDLE`, whose ticks are the idle ones. -/
theorem resetTickAbandons : Obligations.ResetTickAbandons := by
  intro i s hr
  have hidle : (tick i s).ph = .idle := by rw [tick_of_rst hr]; rfl
  refine ⟨⟨_, _, _, _, Nat.mod_lt _ (Nat.two_pow_pos _), fun hw => ?_, tick_of_rst hr⟩, fun j hj => ?_, ?_,
    (State.ready_iff _).mpr hidle, fun j hj => ⟨fun hv => ?_, fun hv => ?_⟩⟩
  · exact if_neg (Bool.eq_false_iff.mp hw)
  · rw [tick_of_rst hj, tick_of_rst hr]
  · exact congrArg Phase.isWrite hidle
  · rw [tick_of_no_request hj hidle hv]; exact hidle
  · rw [tick_of_request hj hidle hv]; rfl

/-- The wait phases after an enable-high write. -/
theorem Phase.num_mem_pulse {p : Phase} (h : p.num ∈ [4, 10]) : p = .hWait2 ∨ p = .lWait2 := by
  revert h; cases p <;> decide

/-- The byte of an enable-high write phase has the enable line high. -/
theorem lineHigh_en_busData {m : Masks} (hm : m.Ok) (v : Byte) (md : Mode) {p : Phase} (h : p.microStep = 2) :
    lineHigh m.en (busData m v md p) = true := by
  rw [busData_eq_encodeBus hm, lineHigh_en_encodeBus hm, decide_eq_true h]

/-- Settles O24: in both phases the latch holds the byte of the enable-high write, and a reset outside a write phase keeps it. -/
theorem resetInPulseLeavesEnableHigh : Obligations.ResetInPulseLeavesEnableHigh := by
  intro i s hm hinv hnum hr
  have hkeep : s.resetTick.xp = s.xp := by
    rcases Phase.num_mem_pulse hnum with hp | hp <;> rw [State.resetTick_xp, hp] <;> rfl
  have hhigh : lineHigh s.cfg.masks.en s.xp = true := by
    rw [hinv.latchHolds]
    rcases Phase.num_mem_pulse hnum with hp | hp <;> rw [lastWritten, hp] <;> exact lineHigh_en_busData hm _ _ rfl
  rw [tick_of_rst hr, hkeep]
  exact ⟨hhigh, rfl, rfl, rfl, rfl⟩

/-! ### A transfer as ticks (70_reset_and_hazards.md R175) -/

@[simp] theorem ticks_withInputs (is js : List TickIn) (s : State) : ticks is (s.withInputs js) = (ticks is s).withInputs js := by
  induction is generalizing s with
  | nil => rfl
  | cons i is ih => rw [ticks, ticks, tick_withInputs, ih]

/-- A transfer is in progress before each of the ticks. -/
def BusyThroughout (is : List TickIn) (s : State) : Prop := ∀ n, n < is.length → (ticks (is.take n) s).busy = true

theorem BusyThroughout.nil (s : State) : BusyThroughout [] s := fun _ hn => absurd hn (Nat.not_lt_zero _)

theorem busyThroughout_cons_iff (i : TickIn) (is : List TickIn) (s : State) :
    BusyThroughout (i :: is) s ↔ s.busy = true ∧ BusyThroughout is (tick i s) := by
  refine ⟨fun h => ⟨h 0 (Nat.succ_pos _), fun n hn => h (n + 1) (Nat.succ_lt_succ hn)⟩, fun ⟨hb, h⟩ n hn => ?_⟩
  cases n with
  | zero => exact hb
  | succ n => exact h n (Nat.lt_of_succ_lt_succ hn)

/-- A transfer is the ticks at which it is in progress. -/
theorem runTransfer_eq_ticks (is : List TickIn) (s : State) :
    ∃ pre rest, is = pre ++ rest ∧ runTransfer is (s.withInputs is) = (ticks pre s).withInputs rest ∧ BusyThroughout pre s := by
  induction is generalizing s with
  | nil => exact ⟨[], [], rfl, rfl, .nil s⟩
  | cons i is ih =>
    cases hb : s.busy
    case false => exact ⟨[], i :: is, rfl, runTransfer_of_not_busy hb, .nil s⟩
    obtain ⟨pre, rest, his, hrun, hbusy⟩ := ih (tick i s)
    refine ⟨i :: pre, rest, by rw [his]; rfl, ?_, (busyThroughout_cons_iff i pre s).mpr ⟨hb, hbusy⟩⟩
    rw [runTransfer, if_pos (show (s.withInputs (i :: is)).busy = true from hb), tick_withInputs, State.withInputs_withInputs, hrun,
      ticks]

/-- The ticks `pre` are one whole transfer from `s`. -/
structure Transfers (pre : List TickIn) (s : State) : Prop where
  busy  : BusyThroughout pre s
  ph    : (ticks pre s).ph = .idle
  done  : (ticks pre s).done = true
  trace : ∃ bytes : List Byte, (ticks pre s).trace = s.trace ++ bytes.map okTxn

/-- From the first write phase, six writes answered `ok`, each with its wait, are a whole transfer. -/
theorem transfers_of_okWrites {is rest : List TickIn} {s : State} (hp : s.ph = .hSetup)
    (h : Env.okWrites s.cfg.waitTicks 6 is = some rest) : ∃ pre, is = pre ++ rest ∧ Transfers pre s := by
  obtain ⟨pre, left, his, hrun, hbusy⟩ := runTransfer_eq_ticks is s
  have hidle : Phase.next^[2 * 6] .hSetup = .idle := rfl
  have hend : runTransfer is (s.withInputs is) = (s.withInputs is).pulses rest 6 := by
    have hwrites : ∀ j < 6, (Phase.next^[2 * j] (s.withInputs is).ph).isWrite = true := by
      rw [State.withInputs_ph, hp]; exact isWrite_iterate_next
    rw [runTransfer_okWrites (s.withInputs_inputs is) hwrites h]
    exact runTransfer_of_not_busy (by rw [State.busy, State.pulses_ph, State.withInputs_ph, hp, hidle]; rfl)
  rw [hrun] at hend
  have hleft : left = rest := by simpa using congrArg State.inputs hend
  have hph := congrArg State.ph hend
  have hdone := congrArg State.done hend
  rw [State.pulses_ph, State.withInputs_ph, State.withInputs_ph, hp, hidle] at hph
  rw [State.pulses_succ, State.pulsed_done, State.pulses_ph, State.withInputs_ph, hp, State.withInputs_done] at hdone
  exact ⟨pre, hleft ▸ his, hbusy, hph, hdone, _, (congrArg State.trace hend).trans (State.pulses_trace _ _ _)⟩

/-! ### The regular bus -/

theorem Env.answer_regular (n : Nat) (is : List TickIn) :
    Env.answer (List.replicate n TickIn.quiet ++ { TickIn.quiet with busAck := true } :: is) = some (.ok, is) := by
  induction n with
  | zero => rfl
  | succ n ih => exact ih

theorem Env.pass_quiet (n : Nat) (is : List TickIn) : Env.pass n (List.replicate n TickIn.quiet ++ is) = some is := by
  induction n with
  | zero => rfl
  | succ n ih => exact ih

/-- It answers every write `ok`, and nothing disturbs the waits. -/
theorem Env.okWrites_regular (w l k : Nat) : Env.okWrites w k (Env.regular w l k) = some [] := by
  induction k with
  | zero => rfl
  | succ k ih =>
    have hsplit : Env.regular w l (k + 1) = List.replicate (l - 1) TickIn.quiet ++ { TickIn.quiet with busAck := true } ::
        (List.replicate (w + 1) TickIn.quiet ++ Env.regular w l k) := by
      simp only [Env.regular, List.append_assoc, List.cons_append, List.nil_append]
    rw [hsplit]
    simp only [Env.okWrites, Env.answer_regular, Env.pass_quiet, ih]

theorem Env.regular_length (w : Nat) {l : Nat} (hl : 1 ≤ l) (k : Nat) : (Env.regular w l k).length = k * (l + w + 1) := by
  induction k with
  | zero => simp [Env.regular]
  | succ k ih =>
    simp only [Env.regular, List.length_append, List.length_replicate, List.length_singleton, ih, Nat.add_mul]
    omega

/-- Settles O26: the regular bus serves the accepted request's six writes and nothing more. -/
theorem transferTickCount : Obligations.TransferTickCount := by
  intro s a l hnum hr hv hl is
  have hp : (tick a s).ph = .hSetup := by rw [tick_of_request hr (s.ph.num_eq_zero.mp hnum) hv]; rfl
  have hok : Env.okWrites (tick a s).cfg.waitTicks 6 is = some [] := by rw [tick_cfg]; exact Env.okWrites_regular _ _ _
  obtain ⟨pre, his, hpre⟩ := transfers_of_okWrites hp hok
  rw [List.append_nil] at his
  rw [his]
  exact ⟨his ▸ Env.regular_length _ hl 6, hpre.ph, hpre.done, hpre.busy⟩

/-! ### An answered transfer ends (70_reset_and_hazards.md R176) -/

/-- A phase of a transfer that is not the last one leads on to another one. -/
theorem Phase.inTransfer_next {p : Phase} (h : p.inTransfer = true) (hl : p ≠ .lWait3) :
    p.next.inTransfer = true ∧ p.next.num = p.num + 1 := by
  revert hl; revert h; cases p <;> decide

section
variable {env : Nat → TickIn} {s : State} (hr : ∀ n, (env n).rst = false)
include hr

/-- A write phase lasts until the bus answers. -/
theorem stateAt_write_ends (he : ∀ n, (env n).busErr = false) {n d : Nat} (hw : (stateAt env s n).ph.isWrite = true)
    (ha : (env (n + d)).busAck = true) : ∃ m, (stateAt env s m).ph = (stateAt env s n).ph.next := by
  induction d generalizing n with
  | zero => exact ⟨n + 1, by rw [stateAt, tick_of_write_ok (hr n) hw ha (he n)]; rfl⟩
  | succ d ih =>
    cases han : (env n).busAck
    · have hstay : (stateAt env s (n + 1)).ph = (stateAt env s n).ph := by rw [stateAt, tick_of_unanswered (hr n) hw han]; rfl
      rw [← hstay]
      exact ih (hstay ▸ hw) (by rwa [Nat.add_right_comm n 1 d])
    · exact ⟨n + 1, by rw [stateAt, tick_of_write_ok (hr n) hw han (he n)]; rfl⟩

/-- A wait phase lasts until the counter has run out. -/
theorem stateAt_wait_ends {n : Nat} (hw : (stateAt env s n).ph.isWait = true) :
    ∃ m, (stateAt env s m).ph = (stateAt env s n).ph.next ∧ (stateAt env s m).done = ((stateAt env s n).ph == .lWait3) := by
  generalize hc : (stateAt env s n).cnt = c
  induction c generalizing n with
  | zero => exact ⟨n + 1, by rw [stateAt, tick_of_wait_end (hr n) hw hc]; exact ⟨rfl, rfl⟩⟩
  | succ c ih =>
    have hcount : stateAt env s (n + 1) = { stateAt env s n with cnt := c, done := false } := by
      rw [stateAt, tick_of_counting (hr n) hw (by omega), hc]; rfl
    have hmore := ih (n := n + 1) (by rw [hcount]; exact hw) (by rw [hcount])
    rwa [show (stateAt env s (n + 1)).ph = (stateAt env s n).ph by rw [hcount]] at hmore

/-- Each phase of a transfer ends; the last one gives `DONE`. -/
theorem stateAt_phase_ends (he : ∀ n, (env n).busErr = false) (ha : BusAnswers env s) {n : Nat} (hb : (stateAt env s n).busy = true) :
    ∃ m, (stateAt env s m).ph = (stateAt env s n).ph.next ∧ ((stateAt env s n).ph = .lWait3 → (stateAt env s m).done = true) := by
  rcases (Phase.inTransfer_iff _).mp hb with hw | hw
  · obtain ⟨k, hnk, hk⟩ := ha n hw
    obtain ⟨d, rfl⟩ := Nat.exists_eq_add_of_le hnk
    obtain ⟨m, hm⟩ := stateAt_write_ends hr he hw hk
    exact ⟨m, hm, fun hp => absurd hw (by rw [hp]; decide)⟩
  · obtain ⟨m, hm, hd⟩ := stateAt_wait_ends hr hw
    exact ⟨m, hm, fun hp => by rw [hd, hp]; rfl⟩

/-- A transfer with `k` phases still to come after the present one ends. -/
theorem stateAt_transfer_ends (he : ∀ n, (env n).busErr = false) (ha : BusAnswers env s) {k n : Nat}
    (hb : (stateAt env s n).busy = true) (hk : (stateAt env s n).ph.num + k = 12) :
    ∃ m, (stateAt env s m).ph = .idle ∧ (stateAt env s m).done = true := by
  obtain ⟨m, hph, hdone⟩ := stateAt_phase_ends hr he ha hb
  induction k generalizing n m with
  | zero =>
    have hlast := (Phase.num_eq_twelve _).mp hk
    exact ⟨m, by rw [hph, hlast]; rfl, hdone hlast⟩
  | succ k ih =>
    have hlast : (stateAt env s n).ph ≠ .lWait3 := fun hp => by rw [hp, Phase.num] at hk; omega
    obtain ⟨hbusy, hnum⟩ := Phase.inTransfer_next hb hlast
    rw [← hph] at hbusy hnum
    obtain ⟨m', hph', hdone'⟩ := stateAt_phase_ends hr he ha hbusy
    exact ih hbusy (by omega) m' hph' hdone'

end

/-- Settles O28: each phase still to come ends, the last one with `DONE`. -/
theorem answeredTransferEnds : Obligations.AnsweredTransferEnds := by
  intro env s hb hr he ha
  obtain ⟨-, hle⟩ := s.ph.inTransfer_iff_num.mp hb
  exact stateAt_transfer_ends hr he ha (n := 0) hb (Nat.add_sub_cancel' hle)

/-! ### Labels, completions and the last `DONE` of a stretch of ticks (70_reset_and_hazards.md R178) -/

theorem acceptedOf_append (ls ks : List Label) : acceptedOf (ls ++ ks) = acceptedOf ls ++ acceptedOf ks := List.filterMap_append

theorem tickLabel_ne_reset {i : TickIn} (hr : i.rst = false) (s : State) (x : Byte) : tickLabel i s ≠ some (.reset x) := by
  simp only [tickLabel, hr, Bool.false_eq_true, if_false]
  split_ifs <;> simp

theorem reset_notMem_tickLabels {is : List TickIn} (hr : NoReset is) (s : State) (x : Byte) : Label.reset x ∉ tickLabels is s := by
  induction is generalizing s with
  | nil => exact List.not_mem_nil
  | cons i is ih =>
    obtain ⟨hri, hris⟩ := List.forall_mem_cons.mp hr
    rw [tickLabels, List.mem_append, Option.mem_toList]
    exact not_or.mpr ⟨tickLabel_ne_reset hri s x, ih hris _⟩

theorem noResetAfterAccept_of_notMem {ls : List Label} (h : ∀ x, Label.reset x ∉ ls) : NoResetAfterAccept ls := by
  induction ls with
  | nil => trivial
  | cons l ls ih =>
    have hls : ∀ x, Label.reset x ∉ ls := fun x hx => h x (.tail l hx)
    cases l with
    | accept m b => exact hls
    | wrOk | wrErr | wait | reset => exact ih hls

/-- `DONE` comes only when no transfer is in progress (41_pulse_sequencer.md R97). -/
theorem tick_done_of_busy {i : TickIn} {s : State} (h : (tick i s).busy = true) : (tick i s).done = false := by
  refine Bool.eq_false_iff.mpr fun hd => ?_
  have hready := tick_ready_of_done hd
  rw [State.not_ready_of_busy h] at hready
  cases hready

theorem BusyThroughout.acceptedOf_eq_nil {is : List TickIn} {s : State} (h : BusyThroughout is s) : acceptedOf (tickLabels is s) = [] := by
  induction is generalizing s with
  | nil => rfl
  | cons i is ih =>
    obtain ⟨hb, hmore⟩ := (busyThroughout_cons_iff i is s).mp h
    rw [tickLabels, acceptedOf_append, acceptedOf_tickLabel_eq_nil (.inl (State.not_ready_of_busy hb)), ih hmore]; rfl

/-- A transfer that ends with `DONE` is one completion, and what was accepted last is done. -/
theorem BusyThroughout.completions_eq_one {is : List TickIn} {s : State} (h : BusyThroughout is s) (hne : is ≠ [])
    (hd : (ticks is s).done = true) : completions is s = 1 ∧ ∀ d, lastDone d is s = true := by
  induction is generalizing s with
  | nil => exact absurd rfl hne
  | cons i is ih =>
    obtain ⟨-, hmore⟩ := (busyThroughout_cons_iff i is s).mp h
    cases is with
    | nil =>
      have hdone : (tick i s).done = true := hd
      simp [completions, lastDone, hdone]
    | cons j js =>
      have hbusy := ((busyThroughout_cons_iff j js _).mp hmore).1
      obtain ⟨hone, hlast⟩ := ih hmore (List.cons_ne_nil j js) hd
      rw [completions, tick_done_of_busy hbusy, hone]
      exact ⟨rfl, fun d => hlast _⟩

/-! ### A served program's run -/

/-- The ticks `is` accept exactly the requests of `prog` and complete each of them, with no reset and no failed write. -/
structure Serves (prog : List (Mode × Byte)) (is : List TickIn) (s : State) : Prop where
  noReset     : NoReset is
  accepted    : acceptedOf (tickLabels is s) = prog
  ph          : (ticks is s).ph = .idle
  lastDone    : lastDone true is s = true
  noFault     : NoFault s → NoFault (ticks is s)
  completions : completions is s = prog.length

theorem Serves.nil {s : State} (hp : s.ph = .idle) : Serves [] [] s :=
  ⟨fun _ hi => absurd hi List.not_mem_nil, rfl, hp, rfl, id, rfl⟩

theorem Serves.append {p q : List (Mode × Byte)} {is js : List TickIn} {s : State} (h : Serves p is s) (k : Serves q js (ticks is s)) :
    Serves (p ++ q) (is ++ js) s where
  noReset := List.forall_mem_append.mpr ⟨h.noReset, k.noReset⟩
  accepted := by rw [tickLabels_append, acceptedOf_append, h.accepted, k.accepted]
  ph := by rw [ticks_append]; exact k.ph
  lastDone := by rw [lastDone_append, h.lastDone, k.lastDone]
  noFault := fun hs => by rw [ticks_append]; exact k.noFault (h.noFault hs)
  completions := by rw [completions_append, h.completions, k.completions, List.length_append]

/-- An idle tick serves nothing. -/
theorem Serves.idleTick {i : TickIn} {s : State} (hr : i.rst = false) (hp : s.ph = .idle) (hv : i.reqValid = false) : Serves [] [i] s := by
  have htick : tick i s = s.clearDone := tick_of_no_request hr hp hv
  have hlabel : tickLabel i s = none := tickLabel_of_no_request hr hp hv
  refine ⟨List.forall_mem_singleton.mpr hr, ?_, ?_, ?_, ?_, ?_⟩
  · rw [tickLabels_singleton, hlabel]; rfl
  · rw [ticks, htick]; exact hp
  · rw [Machine.lastDone, hlabel]; simp [Machine.lastDone, acceptedOf]
  · rw [ticks, htick]; exact id
  · rw [Machine.completions, htick]; rfl

/-- An accepting tick and the transfer after it serve the request. -/
theorem Serves.transfer {i : TickIn} {pre : List TickIn} {s : State} (hr : NoReset (i :: pre)) (hp : s.ph = .idle)
    (hv : i.reqValid = true) (h : Transfers pre (tick i s)) : Serves [(i.reqMode, i.reqValue)] (i :: pre) s := by
  obtain ⟨hri, -⟩ := List.forall_mem_cons.mp hr
  have htick : tick i s = s.accept i.reqMode i.reqValue := tick_of_request hri hp hv
  obtain ⟨hbusy, hph, hdone, bytes, htrace⟩ := h
  have hne : pre ≠ [] := by rintro rfl; rw [ticks, htick] at hph; cases hph
  obtain ⟨hone, hlast⟩ := hbusy.completions_eq_one hne hdone
  refine ⟨hr, ?_, hph, hlast _, fun hs => ?_, ?_⟩
  · rw [tickLabels, acceptedOf_append, hbusy.acceptedOf_eq_nil, tickLabel_of_request hri hp hv]; rfl
  · rw [ticks, NoFault, htrace, htick, List.forall_mem_append, List.forall_mem_map]
    exact ⟨hs, fun _ _ => rfl⟩
  · rw [Machine.completions, hone, htick]; rfl

/-- A request presented to an idle NT4, whose six writes are answered `ok`, is served. -/
theorem serves_request {q : Mode × Byte} {is js ks : List TickIn} {s : State} (hp : s.ph = .idle)
    (hreq : Env.request is = some (q, js)) (hok : Env.okWrites s.cfg.waitTicks 6 js = some ks) :
    ∃ pre, is = pre ++ ks ∧ Serves [q] pre s := by
  induction is generalizing s with
  | nil => cases hreq
  | cons i is ih =>
    unfold Env.request at hreq
    split at hreq; · cases hreq
    rename_i hd
    obtain ⟨hr, -⟩ := TickIn.of_not_disturbed (Bool.eq_false_iff.mpr hd)
    split at hreq
    · rename_i hv
      obtain ⟨rfl, rfl⟩ : (i.reqMode, i.reqValue) = q ∧ is = js := by simpa using hreq
      have hsetup : (tick i s).ph = .hSetup := by rw [tick_of_request hr hp hv]; rfl
      obtain ⟨pre, rfl, hpre⟩ := transfers_of_okWrites hsetup (by rwa [tick_cfg])
      obtain ⟨pre', hsame, hund⟩ := Env.okWrites_prefix hok
      obtain rfl : pre = pre' := List.append_cancel_right hsame
      have hrs : NoReset pre := fun j hj => (TickIn.of_not_disturbed (hund j hj)).1
      exact ⟨i :: pre, rfl, .transfer (List.forall_mem_cons.mpr ⟨hr, hrs⟩) hp hv hpre⟩
    · rename_i hv
      have hidle := Serves.idleTick hr hp (Bool.eq_false_iff.mpr hv)
      obtain ⟨pre, rfl, hpre⟩ := ih hidle.ph hreq (by rwa [ticks_cfg])
      exact ⟨i :: pre, rfl, hidle.append hpre⟩

/-- A program served to the end of the inputs, request by request. -/
theorem serves_program {prog : List (Mode × Byte)} {is : List TickIn} {s : State} (hp : s.ph = .idle)
    (h : Env.serves s.cfg.waitTicks prog is = some []) : Serves prog is s := by
  induction prog generalizing is s with
  | nil =>
    obtain rfl : is = [] := by simpa [Env.serves] using h
    exact .nil hp
  | cons q qs ih =>
    obtain ⟨js, ks, hreq, hok, hmore⟩ := Env.serves_cons h
    obtain ⟨pre, rfl, hpre⟩ := serves_request hp hreq hok
    exact hpre.append (ih hpre.ph (by rwa [ticks_cfg]))

/-- Settles O48: the run serves the program, and it has no reset at all. -/
theorem servedProgramEndsFinal : Obligations.ServedProgramEndsFinal := by
  intro prog s is hp hs h
  have hrun := serves_program hp h
  exact ⟨⟨⟨hrun.accepted, (State.ready_iff _).mpr hrun.ph, hrun.lastDone⟩, hrun.noFault hs,
    noResetAfterAccept_of_notMem (reset_notMem_tickLabels hrun.noReset s)⟩, hrun.completions⟩

end Sys2Proof.Machine
